-- ==== Sys2Proof/Word.lean ====
section
/-! DEFINITION. The machine's words: the widths of the spec's values (spec 00_scope R8, 10_state R20, R25, R26). -/

namespace Sys2Proof

/-- An 8-bit value: a register, a memory cell, a timer, an immediate `kk`. -/
abbrev Byte := BitVec 8

/-- A 16-bit value: `I`, `PC`, a stack entry, an instruction word, the `info` of an error. -/
abbrev Word := BitVec 16

/-- A 12-bit address operand `nnn`. -/
abbrev Addr := BitVec 12

/-- A 4-bit field of an instruction word that is not a register number (`n`, an ignored `y`). -/
abbrev Nibble := BitVec 4

/-- The number of a general register, 0 to 15 (R20). -/
abbrev Reg := Fin 16

/-- The number of a key of the keypad, 0 to 15 (R33). -/
abbrev Key := Fin 16

end Sys2Proof
end

