-- ==== Sys2Proof/Decode.lean ====
section
/-! DEFINITION. Decoding (spec 30_encoding R90 to R99) of words and of bytes, and the encoder written from the same opcode
map (R92, R95). -/

namespace Sys2Proof

/-! ## Fields of an instruction word (R11, R91) -/

/-- `op = w[15:12]` -/
def fieldOp (w : Word) : Nibble := w.extractLsb' 12 4

/-- `x = w[11:8]`, a register number -/
def fieldX (w : Word) : Reg := (w.extractLsb' 8 4).toFin

/-- `y = w[7:4]`, as bits -/
def fieldYBits (w : Word) : Nibble := w.extractLsb' 4 4

/-- `y = w[7:4]`, a register number -/
def fieldY (w : Word) : Reg := (fieldYBits w).toFin

/-- `n = w[3:0]` -/
def fieldN (w : Word) : Nibble := w.extractLsb' 0 4

/-- `nnn = w[11:0]` -/
def fieldNnn (w : Word) : Addr := w.extractLsb' 0 12

/-- `kk = w[7:0]` -/
def fieldKk (w : Word) : Byte := w.extractLsb' 0 8

/-- R62: the instruction word whose bytes at `a` and `a+1` are `hi` and `lo`. -/
def wordOfBytes (hi lo : Byte) : Word := hi ++ lo

/-- R62: the byte of a word that stands at the lower address. -/
def highByte (w : Word) : Byte := w.extractLsb' 8 8

/-- R62: the byte of a word that stands at the higher address. -/
def lowByte (w : Word) : Byte := w.extractLsb' 0 8

/-! ## Decoding (R94) -/

/-- Family 0x8: the subselector is `n` (R94). -/
def decodeAlu (w : Word) : Option Instr :=
  match fieldN w with
  | 0x0 => some (.ldReg (fieldX w) (fieldY w))
  | 0x1 => some (.orReg (fieldX w) (fieldY w))
  | 0x2 => some (.andReg (fieldX w) (fieldY w))
  | 0x3 => some (.xorReg (fieldX w) (fieldY w))
  | 0x4 => some (.addReg (fieldX w) (fieldY w))
  | 0x5 => some (.subReg (fieldX w) (fieldY w))
  | 0x6 => some (.shr (fieldX w) (fieldYBits w))
  | 0x7 => some (.subnReg (fieldX w) (fieldY w))
  | 0xE => some (.shl (fieldX w) (fieldYBits w))
  | _ => none

/-- Family 0xE: the subselector is `kk` (R94). -/
def decodeKey (w : Word) : Option Instr :=
  match fieldKk w with
  | 0x9E => some (.skp (fieldX w))
  | 0xA1 => some (.sknp (fieldX w))
  | _ => none

/-- Family 0xF: the subselector is `kk` (R94). -/
def decodeMisc (w : Word) : Option Instr :=
  match fieldKk w with
  | 0x07 => some (.ldVxDt (fieldX w))
  | 0x0A => some (.ldVxK (fieldX w))
  | 0x15 => some (.ldDtVx (fieldX w))
  | 0x18 => some (.ldStVx (fieldX w))
  | 0x1E => some (.addI (fieldX w))
  | 0x29 => some (.ldF (fieldX w))
  | 0x33 => some (.ldB (fieldX w))
  | 0x55 => some (.ldMemVx (fieldX w))
  | 0x65 => some (.ldVxMem (fieldX w))
  | _ => none

/-- Family 0x0 is matched on the whole word (R94). -/
def decodeZero (w : Word) : Option Instr :=
  match w with
  | 0x00E0 => some .cls
  | 0x00EE => some .ret
  | _ => none

/-- R94: the instruction a word is, or `none` for `Invalid`. -/
def decode (w : Word) : Option Instr :=
  match fieldOp w with
  | 0x0 => decodeZero w
  | 0x1 => some (.jp (fieldNnn w))
  | 0x2 => some (.call (fieldNnn w))
  | 0x3 => some (.seImm (fieldX w) (fieldKk w))
  | 0x4 => some (.sneImm (fieldX w) (fieldKk w))
  | 0x5 => some (.seReg (fieldX w) (fieldY w) (fieldN w))
  | 0x6 => some (.ldImm (fieldX w) (fieldKk w))
  | 0x7 => some (.addImm (fieldX w) (fieldKk w))
  | 0x8 => decodeAlu w
  | 0x9 => some (.sneReg (fieldX w) (fieldY w) (fieldN w))
  | 0xA => some (.ldI (fieldNnn w))
  | 0xB => some (.jpV0 (fieldNnn w))
  | 0xC => some (.rnd (fieldX w) (fieldKk w))
  | 0xD => some (.drw (fieldX w) (fieldY w) (fieldN w))
  | 0xE => decodeKey w
  -- 0xF, the one value left of a nibble
  | _ => decodeMisc w

/-- Why bytes are no instruction: fewer than two of them, or a word that matches no row of the opcode map (R96). -/
inductive DecodeError where
  | truncated
  | invalidOpcode (w : Word)
  deriving DecidableEq, Repr

/-- R90: a decoder always consumes two bytes, high byte first; the rest of the bytes is handed back. -/
def decodeBytes (bytes : List Byte) : Except DecodeError (Instr × List Byte) :=
  match bytes with
  | hi :: lo :: rest =>
    match decode (wordOfBytes hi lo) with
    | some i => .ok (i, rest)
    | none => .error (.invalidOpcode (wordOfBytes hi lo))
  | _ => .error .truncated

/-! ## Encoding (R92, R95) -/

/-- Format `R`: op, x, y, n. -/
def formatR (op x y n : Nibble) : Word := op ++ x ++ y ++ n

/-- Formats `I` and `S`: op, x, and eight bits that are `kk` or a selector. -/
def formatI (op x : Nibble) (kk : Byte) : Word := op ++ x ++ kk

/-- Format `A`: op, nnn. -/
def formatA (op : Nibble) (nnn : Addr) : Word := op ++ nnn

/-- A register number as its four bits. -/
def regBits (x : Reg) : Nibble := BitVec.ofFin x

/-- R95: the word of an instruction. -/
def encode (i : Instr) : Word :=
  match i with
  | .cls => 0x00E0
  | .ret => 0x00EE
  | .jp nnn => formatA 0x1 nnn
  | .call nnn => formatA 0x2 nnn
  | .seImm x kk => formatI 0x3 (regBits x) kk
  | .sneImm x kk => formatI 0x4 (regBits x) kk
  | .seReg x y n => formatR 0x5 (regBits x) (regBits y) n
  | .ldImm x kk => formatI 0x6 (regBits x) kk
  | .addImm x kk => formatI 0x7 (regBits x) kk
  | .ldReg x y => formatR 0x8 (regBits x) (regBits y) 0x0
  | .orReg x y => formatR 0x8 (regBits x) (regBits y) 0x1
  | .andReg x y => formatR 0x8 (regBits x) (regBits y) 0x2
  | .xorReg x y => formatR 0x8 (regBits x) (regBits y) 0x3
  | .addReg x y => formatR 0x8 (regBits x) (regBits y) 0x4
  | .subReg x y => formatR 0x8 (regBits x) (regBits y) 0x5
  | .shr x y => formatR 0x8 (regBits x) y 0x6
  | .subnReg x y => formatR 0x8 (regBits x) (regBits y) 0x7
  | .shl x y => formatR 0x8 (regBits x) y 0xE
  | .sneReg x y n => formatR 0x9 (regBits x) (regBits y) n
  | .ldI nnn => formatA 0xA nnn
  | .jpV0 nnn => formatA 0xB nnn
  | .rnd x kk => formatI 0xC (regBits x) kk
  | .drw x y n => formatR 0xD (regBits x) (regBits y) n
  | .skp x => formatI 0xE (regBits x) 0x9E
  | .sknp x => formatI 0xE (regBits x) 0xA1
  | .ldVxDt x => formatI 0xF (regBits x) 0x07
  | .ldVxK x => formatI 0xF (regBits x) 0x0A
  | .ldDtVx x => formatI 0xF (regBits x) 0x15
  | .ldStVx x => formatI 0xF (regBits x) 0x18
  | .addI x => formatI 0xF (regBits x) 0x1E
  | .ldF x => formatI 0xF (regBits x) 0x29
  | .ldB x => formatI 0xF (regBits x) 0x33
  | .ldMemVx x => formatI 0xF (regBits x) 0x55
  | .ldVxMem x => formatI 0xF (regBits x) 0x65

/-- R62: the two bytes of an instruction, as they stand in memory. -/
def encodeBytes (i : Instr) : List Byte := [highByte (encode i), lowByte (encode i)]

/-! ## The opcode table's numbering of bits -/

/-- The word that bits `w` numbered as the opcode table numbers them stand for: every bit above `nbits` is 0. -/
def tableWord (nbits w : Nat) : Word := BitVec.ofNat 16 (w % 2 ^ nbits)

/-- The instruction the decoder reads from the table's bits, laid out as the hardware stores them. -/
def decodeTableWord (nbits w : Nat) : Option Instr :=
  match decodeBytes [highByte (tableWord nbits w), lowByte (tableWord nbits w)] with
  | .ok (i, _) => some i
  | .error _ => none

end Sys2Proof
end

