-- ==== Sys2Proof/Config.lean ====
section
/-! DEFINITION. What an implementation fixes (spec 00_scope R6): the constants, the three parameters a model takes as
configuration with their defaults, and the free random byte. -/

namespace Sys2Proof

/-- `MEM_SIZE` (R6): 4096 bytes. -/
abbrev memSize : Nat := 4096

/-- `PROGRAM_BASE` (R6): where the program is loaded and where `PC` starts. -/
abbrev programBase : Nat := 0x200

/-- `ROM_MAX` (R6): 3584 bytes. -/
abbrev romMax : Nat := memSize - programBase

/-- The number of bytes of the font: 16 glyphs of 5 bytes (R6, R68). -/
abbrev fontSize : Nat := 80

/-- The parameters of R6: a model takes them as configuration arguments. -/
structure Config where
  /-- `FONT_BASE` -/
  fontBase : Nat
  /-- `FONT`, 80 bytes, glyph by glyph -/
  font : List Byte
  /-- `STACK_DEPTH` -/
  stackDepth : Nat
  deriving DecidableEq, Repr

/-- The default `FONT` of R68, digits 0 to 7. PRESUMED (log 4: the spec supplies these bytes from general knowledge). -/
def Config.fontLow : List Byte :=
  [0xF0, 0x90, 0x90, 0x90, 0xF0] ++ [0x20, 0x60, 0x20, 0x20, 0x70] ++ [0xF0, 0x10, 0xF0, 0x80, 0xF0] ++
  [0xF0, 0x10, 0xF0, 0x10, 0xF0] ++ [0x90, 0x90, 0xF0, 0x10, 0x10] ++ [0xF0, 0x80, 0xF0, 0x10, 0xF0] ++
  [0xF0, 0x80, 0xF0, 0x90, 0xF0] ++ [0xF0, 0x10, 0x20, 0x40, 0x40]

/-- The default `FONT` of R68, digits 8 to F. PRESUMED (log 4). -/
def Config.fontHigh : List Byte :=
  [0xF0, 0x90, 0xF0, 0x90, 0xF0] ++ [0xF0, 0x90, 0xF0, 0x10, 0xF0] ++ [0xF0, 0x90, 0xF0, 0x90, 0x90] ++
  [0xE0, 0x90, 0xE0, 0x90, 0xE0] ++ [0xF0, 0x80, 0x80, 0x80, 0xF0] ++ [0xE0, 0x90, 0x90, 0x90, 0xE0] ++
  [0xF0, 0x80, 0xF0, 0x80, 0xF0] ++ [0xF0, 0x80, 0xF0, 0x80, 0x80]

/-- The values this hardware takes (R6): FONT_BASE 0x050 (log 5), the font of R68 (log 4), STACK_DEPTH 16 (log 6). -/
def Config.default : Config where
  fontBase := 0x050
  font := Config.fontLow ++ Config.fontHigh
  stackDepth := 16

/-- The byte the n-th `draw8()` of a run supplies (R143, D4): any byte, nothing constrains it. DESIGN CHOICE (log 2):
it has no body, so that a claim holds for every value; `State.draws` counts the draws. -/
opaque Config.draw8 : Nat → BitVec 8

end Sys2Proof
end

