-- ==== Sys2Proof/Machine/State.lean ====
section
/-! DEFINITION. The state of the core, all of it and nothing else (spec 10_state R20 to R35, R42), and its reset values (R40,
R260). -/

namespace Sys2Proof.Machine

/-- The six errors of R220. -/
inductive ErrorKind where
  | invalidOpcode
  | stackUnderflow
  | stackOverflow
  | memoryAccessOutOfRange
  | romTooLarge
  | keyIndexOutOfRange
  deriving DecidableEq, Repr

/-- The run state `RUN` (R34). -/
inductive RunState where
  /-- the next `step` fetches and executes an instruction -/
  | running
  /-- an `Fx0A` with `x = r` has executed and no key press has arrived yet -/
  | waitingForKey (r : Reg)
  /-- an error has been raised; sticky (R230) -/
  | faulted (e : ErrorKind) (info : Word)
  deriving DecidableEq, Repr

/-- The framebuffer `FB` (R32): 32 rows of 64 pixels, `fb[y][x]`, true for ON. -/
abbrev Frame := Vector (Vector Bool 64) 32

/-- The reasons for which a step stops outside the machine. The spec's own errors are none of them: they are states of
`RUN` (R221, R229; log 1). -/
inductive Fault where
  /-- Raised by RET and CALL in a state whose `SP` points outside the stack array `S`; R28 keeps `SP` in
  0..STACK_DEPTH, and no operation leaves that range (log 20). Safe: the model stops where the spec has no state. -/
  | stackEntryMissing
  deriving DecidableEq, Repr

/-- The reasons for which an instruction has no meaning. -/
inductive Refusal where
  /-- Raised by the dispatch for an instruction that is not modelled, by its mnemonic. Safe. No arm raises it now. -/
  | notModelled (mnemonic : String)
  /-- Raised by `operate` for an operation of the environment to which R262 gives no meaning: anything before the first
  `reset`, and a `load_rom` after a `step` or after another `load_rom`. No instruction raises it (log 17). Safe: the
  model has no move where the spec has none. -/
  | outsideBootOrder
  deriving DecidableEq, Repr

/-- The state (M, V, I, PC, S, SP, DT, ST, FB, K, RUN), the count of draws (log 2) and the parameters (log 3). -/
structure State where
  /-- `V[0..15]` (R20) -/
  v : Vector Byte 16
  /-- `I` (R25) -/
  i : Word
  /-- `PC` (R26) -/
  pc : Word
  /-- `S[0..STACK_DEPTH-1]` (R28), the dead entries too (R29) -/
  stack : List Word
  /-- `SP`, how many entries of `S` are in use (R28) -/
  sp : Nat
  /-- `DT` (R30) -/
  dt : Byte
  /-- `ST` (R30) -/
  st : Byte
  /-- `M` (R31): the cells that differ from the reset contents, by rising address (log 8) -/
  mem : List Host.Cell
  /-- `FB` (R32) -/
  fb : Frame
  /-- `K[0..15]` (R33), true for pressed -/
  keys : Vector Bool 16
  /-- `RUN` (R34) -/
  run : RunState
  /-- the model's own: how many random bytes have been drawn (log 2) -/
  draws : Nat
  /-- the model's own: the parameters of R6, which nothing changes (log 3) -/
  cfg : Config
  deriving DecidableEq, Repr

/-- R40, R260: the state after `reset` of a core with the parameters `c`. -/
def State.resetWith (c : Config) : State where
  v := Vector.replicate 16 0
  i := 0
  pc := BitVec.ofNat 16 programBase
  stack := List.replicate c.stackDepth 0
  sp := 0
  dt := 0
  st := 0
  mem := []
  fb := Vector.replicate 32 (Vector.replicate 64 false)
  keys := Vector.replicate 16 false
  run := .running
  draws := 0
  cfg := c

/-- The machine right after reset, with the parameters this hardware takes (R6, R40). -/
def State.reset : State := State.resetWith Config.default

end Sys2Proof.Machine
end

