-- ==== Sys2Proof/Machine/Ops.lean ====
section
/-! DEFINITION. The named operations over registers, memory, stack, PC and RUN that every meaning is written with: raising an
error (spec 60_exceptions R221), the bounds-checked accesses (20_memory R64 to R67), the fetch (40 R120, R121), push and pop
(R122, R125). The field writes come first. -/

namespace Sys2Proof.Machine

/-! ## Writing one field -/

def setV (v : Vector Byte 16) (s : State) : State := { s with v := v }
def setI (a : Word) (s : State) : State := { s with i := a }
def setPc (a : Word) (s : State) : State := { s with pc := a }
def setStack (l : List Word) (n : Nat) (s : State) : State := { s with stack := l, sp := n }
def setDt (b : Byte) (s : State) : State := { s with dt := b }
def setSt (b : Byte) (s : State) : State := { s with st := b }
def setMem (m : List Host.Cell) (s : State) : State := { s with mem := m }
def setFb (f : Frame) (s : State) : State := { s with fb := f }
def setKeys (k : Vector Bool 16) (s : State) : State := { s with keys := k }
def setRun (r : RunState) (s : State) : State := { s with run := r }
def setDraws (n : Nat) (s : State) : State := { s with draws := n }

/-! ## General registers (R20 to R22) -/

/-- `V[x]` -/
def reg (s : State) (x : Reg) : Byte := s.v[x]

/-- `V[x] <- b` -/
def setReg (x : Reg) (b : Byte) (s : State) : State := setV (s.v.set x b) s

/-- The number of `VF`, the register that doubles as the flag (R23). -/
def vf : Reg := 15

/-! ## Raising an error and waiting -/

/-- R221: `RUN <- Faulted(E, info)` and nothing else. Inside `execute` the PC has been advanced already. -/
def raise (e : ErrorKind) (info : Word) (s : State) : State := setRun (.faulted e info) s

/-- D16: the numeric codes of the errors (R220). -/
def errorCode (e : ErrorKind) : Nat :=
  match e with
  | .invalidOpcode => 1
  | .stackUnderflow => 2
  | .stackOverflow => 3
  | .memoryAccessOutOfRange => 4
  | .romTooLarge => 5
  | .keyIndexOutOfRange => 6

/-! ## Memory (R60 to R67) -/

/-- What a cell that `mem` does not list holds: the reset contents, the font and zeros (R40, R68). -/
def background (c : Config) (a : Nat) : Byte :=
  if c.fontBase ≤ a then c.font.getD (a - c.fontBase) 0 else 0

/-- The byte a list of cells gives for an address, or `bg` where it lists none. -/
def lookupCell (bg : Byte) (a : Nat) : List Host.Cell → Byte
  | [] => bg
  | (k, b) :: rest => if k = a then b else lookupCell bg a rest

/-- The list of cells after `M[a] <- b`: sorted, and without an entry that equals the background. -/
def insertCell (bg : Byte) (a : Nat) (b : Byte) : List Host.Cell → List Host.Cell
  | [] => if b = bg then [] else [(a, b)]
  | (k, c) :: rest =>
    if a < k then (if b = bg then (k, c) :: rest else (a, b) :: (k, c) :: rest)
    else if a = k then (if b = bg then rest else (a, b) :: rest)
    else (k, c) :: insertCell bg a b rest

/-- Addresses strictly rise. -/
def rising : List Host.Cell → Bool
  | [] => true
  | [_] => true
  | c :: d :: rest => decide (c.1 < d.1) && rising (d :: rest)

/-- The canonical form of the memory of a core with parameters `c`: addresses rise, all lie below 4096, and no entry
equals what an unlisted address reads as. -/
def memWf (c : Config) (m : List Host.Cell) : Bool :=
  rising m && m.all (fun e => decide (e.1 < memSize) && e.2 != background c e.1)

/-- `M[a]`, one byte of memory. -/
def byteAt (s : State) (a : Nat) : Byte := lookupCell (background s.cfg a) a s.mem

/-- `M[a] <- b` -/
def setByte (a : Nat) (b : Byte) (s : State) : State := setMem (insertCell (background s.cfg a) a b s.mem) s

/-- R65: `MemRead(a, 1)`, or the address the raise reports. -/
def memRead (s : State) (a : Nat) : Except Word Byte :=
  if a > 4095 then .error (BitVec.ofNat 16 a) else .ok (byteAt s a)

/-- R66: `MemWrite(a, 1, b)`, or the address the raise reports. -/
def memWrite (a : Nat) (b : Byte) (s : State) : Except Word State :=
  if a > 4095 then .error (BitVec.ofNat 16 a) else .ok (setByte a b s)

/-- The bytes `M[a], M[a+1], …`, `n` of them. -/
def loadBytes (s : State) (a n : Nat) : List Byte := (List.range n).map fun k => byteAt s (a + k)

/-- `M[a], M[a+1], … <- bytes` in ascending address order (R72). -/
def storeBytes (a : Nat) : List Byte → State → State
  | [], s => s
  | b :: rest, s => storeBytes (a + 1) rest (setByte a b s)

/-- R67: the lowest address above 4095 among the `len` addresses from `a` on, if there is one. -/
def badSpan (a : Word) (len : Nat) : Option Word :=
  if 0 < len ∧ a.toNat + len - 1 > 4095 then some (BitVec.ofNat 16 (max a.toNat 4096)) else none

/-- R67: an instruction that accesses `len` bytes from `I` on checks all of them before it writes anything. -/
def withSpan (len : Nat) (s : State) (act : State → State) : State :=
  match badSpan s.i len with
  | some a => raise .memoryAccessOutOfRange a s
  | none => act s

/-! ## Program counter -/

/-- R120, R131: `PC <- PC + 2`. -/
def advancePc (s : State) : State := setPc (s.pc + 2) s

/-- R131: a skip whose condition holds advances PC once more. -/
def skipIf (c : Bool) (s : State) : State := if c then advancePc s else s

/-- R120: the two fetch reads, the byte at PC first, or the address the raise reports (R121). -/
def fetchWord (s : State) : Except Word Word :=
  match memRead s s.pc.toNat with
  | .error a => .error a
  | .ok hi =>
    match memRead s (s.pc.toNat + 1) with
    | .error a => .error a
    | .ok lo => .ok (wordOfBytes hi lo)

/-! ## Call stack (R28, R122, R125) -/

/-- `S[SP] <- a; SP <- SP + 1`, where `S` has that entry. -/
def push (a : Word) (s : State) : Option State :=
  if s.sp < s.stack.length then some (setStack (s.stack.set s.sp a) (s.sp + 1) s) else none

/-- `SP <- SP - 1`, with the entry `S[SP]` it leaves, where `S` has that entry. -/
def pop (s : State) : Option (Word × State) :=
  match s.stack[s.sp - 1]? with
  | some a => some (a, setStack s.stack (s.sp - 1) s)
  | none => none

/-! ## Random bytes -/

/-- R143: `draw8()`, a fresh free byte, and the state in which the next draw is another one (log 2). -/
def draw (s : State) : Byte × State := (Config.draw8 s.draws, setDraws (s.draws + 1) s)

/-! ## Placing an instruction for the fetch -/

/-- `w` stored where the next step fetches, with all that this fetch needs: RUN is Running, and a PC from which no two
bytes can be fetched is put at the reset PC (log 18). -/
def placeWord (w : Word) (s : State) : State :=
  let a := if s.pc.toNat ≤ 4094 then s.pc else BitVec.ofNat 16 programBase
  setRun .running (storeBytes a.toNat [highByte w, lowByte w] (setPc a s))

end Sys2Proof.Machine
end

