-- ==== Sys2Proof/Machine/Flags.lean ====
section
/-! DEFINITION. The arithmetic of the ALU and the computations of the flag VF (spec 42_alu R150, R160; 10_state R23, R24): exact integers first, then
reduced modulo 256. -/

namespace Sys2Proof.Machine

/-- R23: as a flag VF takes the values 0 and 1. -/
def flagByte (c : Bool) : Byte := if c then 1 else 0

/-- R150: `(a + b) mod 256` -/
def addResult (a b : Byte) : Byte := BitVec.ofNat 8 (a.toNat + b.toNat)

/-- R150: carry, 1 when the true sum exceeds 255. -/
def carry (a b : Byte) : Bool := decide (a.toNat + b.toNat > 255)

/-- R150: `(a - b) mod 256` -/
def subResult (a b : Byte) : Byte := BitVec.ofInt 8 ((a.toNat : Int) - (b.toNat : Int))

/-- R150: not-borrow, 1 when the minuend is greater than or equal to the subtrahend. -/
def notBorrow (a b : Byte) : Bool := decide (a.toNat ≥ b.toNat)

/-- R157: `a >> 1`, a 0 enters at bit 7. -/
def shrResult (a : Byte) : Byte := a >>> 1

/-- R157: the bit shifted out, `a & 1`. -/
def shrOut (a : Byte) : Bool := a.getLsbD 0

/-- R159: `(a << 1) mod 256` -/
def shlResult (a : Byte) : Byte := a <<< 1

/-- R159: the bit shifted out, `(a >> 7) & 1`. -/
def shlOut (a : Byte) : Bool := a.getLsbD 7

/-- R24, R160: the result is written to `V[x]`, then the flag to `V[15]`: the flag wins. -/
def setResultFlag (x : Reg) (result : Byte) (flag : Bool) (s : State) : State :=
  setReg vf (flagByte flag) (setReg x result s)

end Sys2Proof.Machine
end

