-- ==== Sys2Proof/Machine/Alu.lean ====
section
/-! DEFINITION. The register-to-register ALU, family 0x8 (spec 42_alu R150 to R160). -/

namespace Sys2Proof.Machine

/-- R151 `8xy0` LD Vx, Vy. -/
def execLdReg (x y : Reg) (s : State) : Host.Outcome State Fault Refusal :=
  .next (setReg x (reg s y) s)

/-- R152 `8xy1` OR Vx, Vy: VF is not touched as a flag. -/
def execOrReg (x y : Reg) (s : State) : Host.Outcome State Fault Refusal :=
  .next (setReg x (reg s x ||| reg s y) s)

/-- R153 `8xy2` AND Vx, Vy: VF is not touched as a flag. -/
def execAndReg (x y : Reg) (s : State) : Host.Outcome State Fault Refusal :=
  .next (setReg x (reg s x &&& reg s y) s)

/-- R154 `8xy3` XOR Vx, Vy: VF is not touched as a flag. -/
def execXorReg (x y : Reg) (s : State) : Host.Outcome State Fault Refusal :=
  .next (setReg x (reg s x ^^^ reg s y) s)

/-- R155 `8xy4` ADD Vx, Vy: VF is the carry. -/
def execAddReg (x y : Reg) (s : State) : Host.Outcome State Fault Refusal :=
  .next (setResultFlag x (addResult (reg s x) (reg s y)) (carry (reg s x) (reg s y)) s)

/-- R156 `8xy5` SUB Vx, Vy: VF is not-borrow of Vx - Vy. -/
def execSubReg (x y : Reg) (s : State) : Host.Outcome State Fault Refusal :=
  .next (setResultFlag x (subResult (reg s x) (reg s y)) (notBorrow (reg s x) (reg s y)) s)

/-- R157 `8xy6` SHR Vx: Vx is shifted in place, Vy is not read. -/
def execShr (x : Reg) (s : State) : Host.Outcome State Fault Refusal :=
  .next (setResultFlag x (shrResult (reg s x)) (shrOut (reg s x)) s)

/-- R158 `8xy7` SUBN Vx, Vy: VF is not-borrow of Vy - Vx. -/
def execSubnReg (x y : Reg) (s : State) : Host.Outcome State Fault Refusal :=
  .next (setResultFlag x (subResult (reg s y) (reg s x)) (notBorrow (reg s y) (reg s x)) s)

/-- R159 `8xyE` SHL Vx: Vx is shifted in place, Vy is not read. -/
def execShl (x : Reg) (s : State) : Host.Outcome State Fault Refusal :=
  .next (setResultFlag x (shlResult (reg s x)) (shlOut (reg s x)) s)

end Sys2Proof.Machine
end

