-- ==== Sys2Proof/Machine/Operands.lean ====
section
/-! DEFINITION. The operand forms (spec 30_encoding R93, 45 R200): registers and immediates as unsigned values, the 12-bit
address, the sum of jump with offset, the key number, the font address and the register block. -/

namespace Sys2Proof.Machine

/-- R93: `nnn` as a 16-bit absolute address. -/
def addrOperand (nnn : Addr) : Word := nnn.zeroExtend 16

/-- R124: `nnn + V0`, an integer sum that fits 16 bits and is not reduced modulo 4096. -/
def offsetTarget (nnn : Addr) (v0 : Byte) : Word := BitVec.ofNat 16 (nnn.toNat + v0.toNat)

/-- R190: the key a register names, or `none` for a value above 15. -/
def keyOperand (b : Byte) : Option Key := if h : b.toNat < 16 then some ⟨b.toNat, h⟩ else none

/-- R205: `FONT_BASE + 5 * Vx`, the whole byte, not masked. -/
def fontAddress (c : Config) (b : Byte) : Word := BitVec.ofNat 16 (c.fontBase + 5 * b.toNat)

/-- R204: `(I + Vx) mod 65536`. -/
def indexSum (a : Word) (b : Byte) : Word := BitVec.ofNat 16 (a.toNat + b.toNat)

/-- R206: the decimal digits of a byte, hundreds, tens, ones, each a whole byte. -/
def bcdDigits (b : Byte) : List Byte :=
  [BitVec.ofNat 8 (b.toNat / 100), BitVec.ofNat 8 (b.toNat / 10 % 10), BitVec.ofNat 8 (b.toNat % 10)]

/-- R207: the registers `V0..Vx` in order. -/
def regBlock (s : State) (x : Reg) : List Byte := s.v.toList.take (x.val + 1)

/-- R208: `V[j] <- bytes[j]` for every j that `bytes` has, the other registers as they were. -/
def loadBlock (bytes : List Byte) (v : Vector Byte 16) : Vector Byte 16 :=
  Vector.ofFn fun j => bytes.getD j.val v[j]

end Sys2Proof.Machine
end

