-- ==== Sys2Proof/Machine/Control.lean ====
section
/-! DEFINITION. Control transfer (spec 40_step_control_flow R122 to R131). -/

namespace Sys2Proof.Machine

/-- R122 `00EE` RET: pop the stack into PC, or raise StackUnderflow. -/
def execRet (s : State) : Host.Outcome State Fault Refusal :=
  if s.sp = 0 then .next (raise .stackUnderflow 0 s)
  else
    match pop s with
    | some (a, t) => .next (setPc a t)
    | none => .fault .stackEntryMissing

/-- R123 `1nnn` JP nnn. -/
def execJp (nnn : Addr) (s : State) : Host.Outcome State Fault Refusal :=
  .next (setPc (addrOperand nnn) s)

/-- R125 `2nnn` CALL nnn: push the advanced PC and jump, or raise StackOverflow. -/
def execCall (nnn : Addr) (s : State) : Host.Outcome State Fault Refusal :=
  if s.sp = s.cfg.stackDepth then .next (raise .stackOverflow 0 s)
  else
    match push s.pc s with
    | some t => .next (setPc (addrOperand nnn) t)
    | none => .fault .stackEntryMissing

/-- R126 `3xkk` SE Vx, kk. -/
def execSeImm (x : Reg) (kk : Byte) (s : State) : Host.Outcome State Fault Refusal :=
  .next (skipIf (reg s x == kk) s)

/-- R127 `4xkk` SNE Vx, kk. -/
def execSneImm (x : Reg) (kk : Byte) (s : State) : Host.Outcome State Fault Refusal :=
  .next (skipIf (reg s x != kk) s)

/-- R128 `5xyn` SE Vx, Vy. -/
def execSeReg (x y : Reg) (s : State) : Host.Outcome State Fault Refusal :=
  .next (skipIf (reg s x == reg s y) s)

/-- R129 `9xyn` SNE Vx, Vy. -/
def execSneReg (x y : Reg) (s : State) : Host.Outcome State Fault Refusal :=
  .next (skipIf (reg s x != reg s y) s)

/-- R124 `Bnnn` JP V0, nnn: the offset register is always V0. -/
def execJpV0 (nnn : Addr) (s : State) : Host.Outcome State Fault Refusal :=
  .next (setPc (offsetTarget nnn (reg s 0)) s)

end Sys2Proof.Machine
end

