-- ==== Sys2Proof/Machine/Display.lean ====
section
/-! DEFINITION. The framebuffer engine, CLS and DRW (spec 43_display R170 to R178). -/

namespace Sys2Proof.Machine

/-- R174: a column coordinate modulo 64, the remainder non-negative. -/
def wrapX (px : Int) : Fin 64 := ⟨(px % 64).toNat, by omega⟩

/-- R174: a row coordinate modulo 32, the remainder non-negative. -/
def wrapY (py : Int) : Fin 32 := ⟨(py % 32).toNat, by omega⟩

/-- `FB[y][x]` (R32) -/
def pixelAt (f : Frame) (y : Fin 32) (x : Fin 64) : Bool := f[y][x]

/-- `FB[y][x] <- on` -/
def putPixel (f : Frame) (y : Fin 32) (x : Fin 64) (on : Bool) : Frame := f.set y (f[y].set x on)

/-- R171: toggle the pixel at `(px mod 64, py mod 32)`; true exactly when it is now OFF. -/
def setPixel (f : Frame) (px py : Int) : Frame × Bool :=
  (putPixel f (wrapY py) (wrapX px) (!pixelAt f (wrapY py) (wrapX px)), pixelAt f (wrapY py) (wrapX px))

/-- R172: every pixel OFF. -/
def clearedFrame : Frame := Vector.replicate 32 (Vector.replicate 64 false)

/-- R173: what the renderer sees; a read that changes nothing. -/
def snapshot (s : State) : Frame := s.fb

/-- R176: one bit of a sprite row: a 1 toggles its pixel and raises `hit` when the pixel is now OFF, a 0 does nothing. -/
def drawBit (px py : Int) (on : Bool) (acc : Frame × Bool) : Frame × Bool :=
  if on then ((setPixel acc.1 px py).1, acc.2 || (setPixel acc.1 px py).2) else acc

/-- R176: one sprite row, most significant bit first: column 0 is bit 7. -/
def drawRow (ox oy : Nat) (b : Byte) (acc : Frame × Bool) : Frame × Bool :=
  (List.range 8).foldl (fun a col => drawBit ((ox + col : Nat) : Int) (oy : Int) (b.getLsbD (7 - col)) a) acc

/-- R176: the sprite rows from top to bottom, the first at row `oy`. -/
def drawSprite (ox oy : Nat) : List Byte → Frame × Bool → Frame × Bool
  | [], acc => acc
  | b :: rest, acc => drawSprite ox (oy + 1) rest (drawRow ox oy b acc)

/-- R176, R178: what DRW does once its addresses are checked: the coordinates are read before VF is written. -/
def drawAt (x y : Reg) (n : Nat) (s : State) : State :=
  setReg vf (flagByte (drawSprite (reg s x).toNat (reg s y).toNat (loadBytes s s.i.toNat n) (s.fb, false)).2)
    (setFb (drawSprite (reg s x).toNat (reg s y).toNat (loadBytes s s.i.toNat n) (s.fb, false)).1 s)

/-- R175 `00E0` CLS. -/
def execCls (s : State) : Host.Outcome State Fault Refusal :=
  .next (setFb clearedFrame s)

/-- R176 `Dxyn` DRW Vx, Vy, n. -/
def execDrw (x y : Reg) (n : Nibble) (s : State) : Host.Outcome State Fault Refusal :=
  .next (withSpan n.toNat s (drawAt x y n.toNat))

end Sys2Proof.Machine
end

