-- ==== Sys2Proof/Machine/Immediate.lean ====
section
/-! DEFINITION. Immediate loads, immediate add, index load, random (spec 41_immediate_index_random R140 to R143). -/

namespace Sys2Proof.Machine

/-- R140 `6xkk` LD Vx, kk. -/
def execLdImm (x : Reg) (kk : Byte) (s : State) : Host.Outcome State Fault Refusal :=
  .next (setReg x kk s)

/-- R141 `7xkk` ADD Vx, kk: no flag. -/
def execAddImm (x : Reg) (kk : Byte) (s : State) : Host.Outcome State Fault Refusal :=
  .next (setReg x (addResult (reg s x) kk) s)

/-- R142 `Annn` LD I, nnn. -/
def execLdI (nnn : Addr) (s : State) : Host.Outcome State Fault Refusal :=
  .next (setI (addrOperand nnn) s)

/-- R143 `Cxkk` RND Vx, kk: a fresh free byte, masked. -/
def execRnd (x : Reg) (kk : Byte) (s : State) : Host.Outcome State Fault Refusal :=
  .next (setReg x ((draw s).1 &&& kk) (draw s).2)

end Sys2Proof.Machine
end

