-- ==== Sys2Proof/Machine/Keypad.lean ====
section
/-! DEFINITION. The keypad instructions (spec 44_keypad R190 to R193). -/

namespace Sys2Proof.Machine

/-- R191, R192: a skip on the state of the key `Vx` names: it skips when that state is `wanted`. -/
def skipOnKey (x : Reg) (wanted : Bool) (s : State) : State :=
  match keyOperand (reg s x) with
  | none => raise .keyIndexOutOfRange ((reg s x).zeroExtend 16) s
  | some k => skipIf (s.keys[k] == wanted) s

/-- R191 `Ex9E` SKP Vx. -/
def execSkp (x : Reg) (s : State) : Host.Outcome State Fault Refusal :=
  .next (skipOnKey x true s)

/-- R192 `ExA1` SKNP Vx. -/
def execSknp (x : Reg) (s : State) : Host.Outcome State Fault Refusal :=
  .next (skipOnKey x false s)

/-- R193 `Fx0A` LD Vx, K: the core suspends; the register is written when a key goes down (R241). -/
def execLdVxK (x : Reg) (s : State) : Host.Outcome State Fault Refusal :=
  .next (setRun (.waitingForKey x) s)

end Sys2Proof.Machine
end

