-- ==== Sys2Proof/Machine/TimerIndex.lean ====
section
/-! DEFINITION. Timers, index, BCD and register blocks (spec 45_timer_index_memory R200 to R209). -/

namespace Sys2Proof.Machine

/-- R201 `Fx07` LD Vx, DT. -/
def execLdVxDt (x : Reg) (s : State) : Host.Outcome State Fault Refusal :=
  .next (setReg x s.dt s)

/-- R202 `Fx15` LD DT, Vx. -/
def execLdDtVx (x : Reg) (s : State) : Host.Outcome State Fault Refusal :=
  .next (setDt (reg s x) s)

/-- R203 `Fx18` LD ST, Vx. -/
def execLdStVx (x : Reg) (s : State) : Host.Outcome State Fault Refusal :=
  .next (setSt (reg s x) s)

/-- R204 `Fx1E` ADD I, Vx: no flag, no fault. -/
def execAddI (x : Reg) (s : State) : Host.Outcome State Fault Refusal :=
  .next (setI (indexSum s.i (reg s x)) s)

/-- R205 `Fx29` LD F, Vx. -/
def execLdF (x : Reg) (s : State) : Host.Outcome State Fault Refusal :=
  .next (setI (fontAddress s.cfg (reg s x)) s)

/-- R206 `Fx33` LD B, Vx: hundreds, tens, ones to I, I+1, I+2. -/
def execLdB (x : Reg) (s : State) : Host.Outcome State Fault Refusal :=
  .next (withSpan 3 s fun s => storeBytes s.i.toNat (bcdDigits (reg s x)) s)

/-- R207 `Fx55` LD [I], Vx: V0..Vx to I..I+x; I unchanged (R209). -/
def execLdMemVx (x : Reg) (s : State) : Host.Outcome State Fault Refusal :=
  .next (withSpan (x.val + 1) s fun s => storeBytes s.i.toNat (regBlock s x) s)

/-- R208 `Fx65` LD Vx, [I]: I..I+x to V0..Vx; I unchanged (R209). -/
def execLdVxMem (x : Reg) (s : State) : Host.Outcome State Fault Refusal :=
  .next (withSpan (x.val + 1) s fun s => setV (loadBlock (loadBytes s s.i.toNat (x.val + 1)) s.v) s)

end Sys2Proof.Machine
end

