-- ==== Sys2Proof/Machine/Cycle.lean ====
section
/-! DEFINITION. The step cycle (spec 40_step_control_flow R120, R121, R132). -/

namespace Sys2Proof.Machine

/-- R120: decode the fetched word and execute the instruction, the PC advanced before both; an invalid word raises. -/
def runWord (w : Word) (s : State) : Host.Outcome State Fault Refusal :=
  match decode w with
  | none => .next (raise .invalidOpcode w s)
  | some i => exec i s

/-- R120: one step of a core whose RUN is Running. A fetch that cannot complete raises before the advance (R121). -/
def fetchAndRun (s : State) : Host.Outcome State Fault Refusal :=
  match fetchWord s with
  | .error a => .next (raise .memoryAccessOutOfRange a s)
  | .ok w => runWord w (advancePc s)

/-- R120, R132: a core that waits or has faulted holds: no fetch, no change. -/
def cycle (s : State) : Host.Outcome State Fault Refusal :=
  match s.run with
  | .running => fetchAndRun s
  | .waitingForKey _ => .next s
  | .faulted _ _ => .next s

end Sys2Proof.Machine
end

