-- ==== Sys2Proof/WellFormed.lean ====
section
/-! DEFINITION. The checks on what is given to the machine: the configuration (spec 00_scope R6, 92 D1), the ROM image (R263) and
the opcode map of R95 as masks and matches, which says which words are instructions. An `Instr` needs no check of its
own: its operand types hold exactly the values the encoding admits. -/

namespace Sys2Proof

/-- D1: the font lies below the program load point. -/
def Config.fontBelowProgram (c : Config) : Bool := decide (c.fontBase + fontSize ≤ programBase)

/-- R6: `FONT` has 80 bytes. -/
def Config.fontSized (c : Config) : Bool := decide (c.font.length = fontSize)

/-- A configuration the spec admits. -/
def Config.wf (c : Config) : Bool := c.fontBelowProgram && c.fontSized

/-- R263: an image `load_rom` accepts. -/
def romFits (image : List Byte) : Bool := decide (image.length ≤ romMax)

/-- One row of the opcode map of R95. -/
structure OpcodeRow where
  pattern : String
  mask : Word
  value : Word
  deriving DecidableEq, Repr

/-- R95: a word selects the row when `w & mask == match`. -/
def OpcodeRow.selects (r : OpcodeRow) (w : Word) : Bool := w &&& r.mask == r.value

/-- R95, rows 1 to 17. -/
def opcodeRowsLow : List OpcodeRow :=
  [⟨"00E0", 0xFFFF, 0x00E0⟩,
   ⟨"00EE", 0xFFFF, 0x00EE⟩,
   ⟨"1nnn", 0xF000, 0x1000⟩,
   ⟨"2nnn", 0xF000, 0x2000⟩,
   ⟨"3xkk", 0xF000, 0x3000⟩,
   ⟨"4xkk", 0xF000, 0x4000⟩,
   ⟨"5xyn", 0xF000, 0x5000⟩,
   ⟨"6xkk", 0xF000, 0x6000⟩,
   ⟨"7xkk", 0xF000, 0x7000⟩,
   ⟨"8xy0", 0xF00F, 0x8000⟩,
   ⟨"8xy1", 0xF00F, 0x8001⟩,
   ⟨"8xy2", 0xF00F, 0x8002⟩,
   ⟨"8xy3", 0xF00F, 0x8003⟩,
   ⟨"8xy4", 0xF00F, 0x8004⟩,
   ⟨"8xy5", 0xF00F, 0x8005⟩,
   ⟨"8xy6", 0xF00F, 0x8006⟩,
   ⟨"8xy7", 0xF00F, 0x8007⟩]

/-- R95, rows 18 to 34. -/
def opcodeRowsHigh : List OpcodeRow :=
  [⟨"8xyE", 0xF00F, 0x800E⟩,
   ⟨"9xyn", 0xF000, 0x9000⟩,
   ⟨"Annn", 0xF000, 0xA000⟩,
   ⟨"Bnnn", 0xF000, 0xB000⟩,
   ⟨"Cxkk", 0xF000, 0xC000⟩,
   ⟨"Dxyn", 0xF000, 0xD000⟩,
   ⟨"Ex9E", 0xF0FF, 0xE09E⟩,
   ⟨"ExA1", 0xF0FF, 0xE0A1⟩,
   ⟨"Fx07", 0xF0FF, 0xF007⟩,
   ⟨"Fx0A", 0xF0FF, 0xF00A⟩,
   ⟨"Fx15", 0xF0FF, 0xF015⟩,
   ⟨"Fx18", 0xF0FF, 0xF018⟩,
   ⟨"Fx1E", 0xF0FF, 0xF01E⟩,
   ⟨"Fx29", 0xF0FF, 0xF029⟩,
   ⟨"Fx33", 0xF0FF, 0xF033⟩,
   ⟨"Fx55", 0xF0FF, 0xF055⟩,
   ⟨"Fx65", 0xF0FF, 0xF065⟩]

/-- R95: the complete opcode map, 34 rows. -/
def opcodeRows : List OpcodeRow := opcodeRowsLow ++ opcodeRowsHigh

/-- R95, R96: the word is one of the 34 instructions. -/
def wordListed (w : Word) : Bool := opcodeRows.any (·.selects w)

end Sys2Proof
end

