-- ==== Sys2Proof/Laws/Decode.lean ====
section
/-! SUPPORT. The fields of a word built by each format, a word as its fields, and the bytes of a word. -/

namespace Sys2Proof

@[simp] theorem regBits_toFin (x : Reg) : (regBits x).toFin = x := rfl

theorem toNat_formatR (op x y n : Nibble) :
    (formatR op x y n).toNat = op.toNat * 4096 + x.toNat * 256 + y.toNat * 16 + n.toNat := by
  have := op.isLt; have := x.isLt; have := y.isLt; have := n.isLt
  rw [formatR, BitVec.toNat_append, BitVec.toNat_append, BitVec.toNat_append,
    ← Nat.shiftLeft_add_eq_or_of_lt (by omega), ← Nat.shiftLeft_add_eq_or_of_lt (by omega),
    ← Nat.shiftLeft_add_eq_or_of_lt (by omega)]
  simp only [Nat.shiftLeft_eq]
  omega

theorem toNat_formatI (op x : Nibble) (kk : Byte) :
    (formatI op x kk).toNat = op.toNat * 4096 + x.toNat * 256 + kk.toNat := by
  have := op.isLt; have := x.isLt; have := kk.isLt
  rw [formatI, BitVec.toNat_append, BitVec.toNat_append,
    ← Nat.shiftLeft_add_eq_or_of_lt (by omega), ← Nat.shiftLeft_add_eq_or_of_lt (by omega)]
  simp only [Nat.shiftLeft_eq]
  omega

theorem toNat_formatA (op : Nibble) (nnn : Addr) : (formatA op nnn).toNat = op.toNat * 4096 + nnn.toNat := by
  have := op.isLt; have := nnn.isLt
  rw [formatA, BitVec.toNat_append, ← Nat.shiftLeft_add_eq_or_of_lt (by omega)]
  simp only [Nat.shiftLeft_eq]

/-! ## The fields as numbers -/

theorem toNat_fieldOp (w : Word) : (fieldOp w).toNat = w.toNat / 4096 := by
  have := w.isLt
  simp only [fieldOp, BitVec.extractLsb'_toNat, Nat.shiftRight_eq_div_pow]
  omega

theorem val_fieldX (w : Word) : (fieldX w).val = w.toNat / 256 % 16 := by
  show (w.extractLsb' 8 4).toNat = _
  simp only [BitVec.extractLsb'_toNat, Nat.shiftRight_eq_div_pow]

theorem toNat_fieldYBits (w : Word) : (fieldYBits w).toNat = w.toNat / 16 % 16 := by
  simp only [fieldYBits, BitVec.extractLsb'_toNat, Nat.shiftRight_eq_div_pow]

theorem val_fieldY (w : Word) : (fieldY w).val = w.toNat / 16 % 16 := toNat_fieldYBits w

theorem toNat_fieldN (w : Word) : (fieldN w).toNat = w.toNat % 16 := by
  simp only [fieldN, BitVec.extractLsb'_toNat, Nat.shiftRight_zero]

theorem toNat_fieldNnn (w : Word) : (fieldNnn w).toNat = w.toNat % 4096 := by
  simp only [fieldNnn, BitVec.extractLsb'_toNat, Nat.shiftRight_zero]

theorem toNat_fieldKk (w : Word) : (fieldKk w).toNat = w.toNat % 256 := by
  simp only [fieldKk, BitVec.extractLsb'_toNat, Nat.shiftRight_zero]

theorem toNat_regBits (x : Reg) : (regBits x).toNat = x.val := rfl

theorem toNat_wordOfBytes (hi lo : Byte) : (wordOfBytes hi lo).toNat = hi.toNat * 256 + lo.toNat := by
  have := hi.isLt; have := lo.isLt
  rw [wordOfBytes, BitVec.toNat_append, ← Nat.shiftLeft_add_eq_or_of_lt (by omega), Nat.shiftLeft_eq]

theorem toNat_highByte (w : Word) : (highByte w).toNat = w.toNat / 256 := by
  have := w.isLt
  simp only [highByte, BitVec.extractLsb'_toNat, Nat.shiftRight_eq_div_pow]
  omega

theorem toNat_lowByte (w : Word) : (lowByte w).toNat = w.toNat % 256 := by
  simp only [lowByte, BitVec.extractLsb'_toNat, Nat.shiftRight_zero]

/-! ## Fields of the formats -/

@[simp] theorem fieldOp_formatR (op x y n : Nibble) : fieldOp (formatR op x y n) = op := by
  apply BitVec.eq_of_toNat_eq
  rw [toNat_fieldOp, toNat_formatR]; have := op.isLt; have := x.isLt; have := y.isLt; have := n.isLt; omega
@[simp] theorem fieldX_formatR (op x y n : Nibble) : fieldX (formatR op x y n) = x.toFin := by
  apply Fin.ext
  rw [val_fieldX, toNat_formatR]; have := op.isLt; have := x.isLt; have := y.isLt; have := n.isLt
  show _ = x.toNat; omega
@[simp] theorem fieldYBits_formatR (op x y n : Nibble) : fieldYBits (formatR op x y n) = y := by
  apply BitVec.eq_of_toNat_eq
  rw [toNat_fieldYBits, toNat_formatR]; have := op.isLt; have := x.isLt; have := y.isLt; have := n.isLt; omega
@[simp] theorem fieldY_formatR (op x y n : Nibble) : fieldY (formatR op x y n) = y.toFin :=
  congrArg BitVec.toFin (fieldYBits_formatR op x y n)
@[simp] theorem fieldN_formatR (op x y n : Nibble) : fieldN (formatR op x y n) = n := by
  apply BitVec.eq_of_toNat_eq
  rw [toNat_fieldN, toNat_formatR]; have := op.isLt; have := x.isLt; have := y.isLt; have := n.isLt; omega
@[simp] theorem fieldOp_formatI (op x : Nibble) (kk : Byte) : fieldOp (formatI op x kk) = op := by
  apply BitVec.eq_of_toNat_eq
  rw [toNat_fieldOp, toNat_formatI]; have := op.isLt; have := x.isLt; have := kk.isLt; omega
@[simp] theorem fieldX_formatI (op x : Nibble) (kk : Byte) : fieldX (formatI op x kk) = x.toFin := by
  apply Fin.ext
  rw [val_fieldX, toNat_formatI]; have := op.isLt; have := x.isLt; have := kk.isLt
  show _ = x.toNat; omega
@[simp] theorem fieldKk_formatI (op x : Nibble) (kk : Byte) : fieldKk (formatI op x kk) = kk := by
  apply BitVec.eq_of_toNat_eq
  rw [toNat_fieldKk, toNat_formatI]; have := op.isLt; have := x.isLt; have := kk.isLt; omega
@[simp] theorem fieldOp_formatA (op : Nibble) (nnn : Addr) : fieldOp (formatA op nnn) = op := by
  apply BitVec.eq_of_toNat_eq
  rw [toNat_fieldOp, toNat_formatA]; have := op.isLt; have := nnn.isLt; omega
@[simp] theorem fieldNnn_formatA (op : Nibble) (nnn : Addr) : fieldNnn (formatA op nnn) = nnn := by
  apply BitVec.eq_of_toNat_eq
  rw [toNat_fieldNnn, toNat_formatA]; have := op.isLt; have := nnn.isLt; omega

/-! ## A word from its own fields -/

theorem formatA_fields (w : Word) : formatA (fieldOp w) (fieldNnn w) = w := by
  apply BitVec.eq_of_toNat_eq
  rw [toNat_formatA, toNat_fieldOp, toNat_fieldNnn]; omega

theorem formatI_fields (w : Word) : formatI (fieldOp w) (regBits (fieldX w)) (fieldKk w) = w := by
  apply BitVec.eq_of_toNat_eq
  rw [toNat_formatI, toNat_fieldOp, toNat_fieldKk, toNat_regBits, val_fieldX]; omega

theorem formatR_fields (w : Word) : formatR (fieldOp w) (regBits (fieldX w)) (fieldYBits w) (fieldN w) = w := by
  apply BitVec.eq_of_toNat_eq
  rw [toNat_formatR, toNat_fieldOp, toNat_fieldN, toNat_regBits, val_fieldX, toNat_fieldYBits]; omega

theorem regBits_fieldY (w : Word) : regBits (fieldY w) = fieldYBits w := rfl

@[simp] theorem wordOfBytes_bytes (w : Word) : wordOfBytes (highByte w) (lowByte w) = w := by
  apply BitVec.eq_of_toNat_eq
  rw [toNat_wordOfBytes, toNat_highByte, toNat_lowByte]; omega

@[simp] theorem highByte_wordOfBytes (hi lo : Byte) : highByte (wordOfBytes hi lo) = hi := by
  apply BitVec.eq_of_toNat_eq
  have := lo.isLt
  rw [toNat_highByte, toNat_wordOfBytes]; omega

@[simp] theorem lowByte_wordOfBytes (hi lo : Byte) : lowByte (wordOfBytes hi lo) = lo := by
  apply BitVec.eq_of_toNat_eq
  have := lo.isLt
  rw [toNat_lowByte, toNat_wordOfBytes]; omega

/-! ## The masks of the opcode map (R95) -/

theorem getLsbD_formatA (op : Nibble) (nnn : Addr) (i : Nat) :
    (formatA op nnn).getLsbD i = if i < 12 then nnn.getLsbD i else op.getLsbD (i - 12) := BitVec.getLsbD_append

theorem getLsbD_formatI (op x : Nibble) (kk : Byte) (i : Nat) :
    (formatI op x kk).getLsbD i =
      if i < 8 then kk.getLsbD i else if i - 8 < 4 then x.getLsbD (i - 8) else op.getLsbD (i - 8 - 4) := by
  have h : (formatI op x kk).getLsbD i = if i < 8 then kk.getLsbD i else (op ++ x).getLsbD (i - 8) :=
    BitVec.getLsbD_append
  rw [h, BitVec.getLsbD_append]

theorem and_maskOp (w : Word) : w &&& (0xF000 : Word) = formatA (fieldOp w) 0 := by
  apply BitVec.eq_of_getLsbD_eq
  intro i hi
  rw [getLsbD_formatA, BitVec.getLsbD_and]
  interval_cases i <;> simp [fieldOp]

theorem and_maskOpKk (w : Word) : w &&& (0xF0FF : Word) = formatI (fieldOp w) 0 (fieldKk w) := by
  apply BitVec.eq_of_getLsbD_eq
  intro i hi
  rw [getLsbD_formatI, BitVec.getLsbD_and]
  interval_cases i <;> simp [fieldOp, fieldKk]

/-- A word of format R, seen as one of format I. -/
theorem formatR_eq_formatI (op x y n : Nibble) : formatR op x y n = formatI op x (y ++ n) := by
  apply BitVec.eq_of_toNat_eq
  have := y.isLt; have := n.isLt
  rw [toNat_formatR, toNat_formatI, BitVec.toNat_append, ← Nat.shiftLeft_add_eq_or_of_lt (by omega), Nat.shiftLeft_eq]
  omega

theorem and_maskOpN (w : Word) : w &&& (0xF00F : Word) = formatR (fieldOp w) 0 0 (fieldN w) := by
  apply BitVec.eq_of_getLsbD_eq
  intro i hi
  rw [formatR_eq_formatI, getLsbD_formatI, BitVec.getLsbD_and, BitVec.getLsbD_append]
  interval_cases i <;> simp [fieldOp, fieldN]

theorem and_maskAll (w : Word) : w &&& (0xFFFF : Word) = w := BitVec.and_allOnes

/-- The table's bits of a whole word are the word. -/
theorem decodeTableWord_eq (nbits w : Nat) : decodeTableWord nbits w = decode (tableWord nbits w) := by
  simp only [decodeTableWord, decodeBytes, wordOfBytes_bytes]
  cases decode (tableWord nbits w) <;> rfl

end Sys2Proof
end

