-- ==== Sys2Proof/Laws/PerInstr.lean ====
section
/-! SUPPORT. A statement per instruction: its word is selected by its own row of the opcode map (spec 30_encoding R95). -/

namespace Sys2Proof.Laws

/-- The row of the opcode map an instruction stands for (R95). -/
def rowOf (i : Instr) : OpcodeRow :=
  match i with
  | .cls => ⟨"00E0", 0xFFFF, 0x00E0⟩
  | .ret => ⟨"00EE", 0xFFFF, 0x00EE⟩
  | .jp _ => ⟨"1nnn", 0xF000, 0x1000⟩
  | .call _ => ⟨"2nnn", 0xF000, 0x2000⟩
  | .seImm _ _ => ⟨"3xkk", 0xF000, 0x3000⟩
  | .sneImm _ _ => ⟨"4xkk", 0xF000, 0x4000⟩
  | .seReg _ _ _ => ⟨"5xyn", 0xF000, 0x5000⟩
  | .ldImm _ _ => ⟨"6xkk", 0xF000, 0x6000⟩
  | .addImm _ _ => ⟨"7xkk", 0xF000, 0x7000⟩
  | .ldReg _ _ => ⟨"8xy0", 0xF00F, 0x8000⟩
  | .orReg _ _ => ⟨"8xy1", 0xF00F, 0x8001⟩
  | .andReg _ _ => ⟨"8xy2", 0xF00F, 0x8002⟩
  | .xorReg _ _ => ⟨"8xy3", 0xF00F, 0x8003⟩
  | .addReg _ _ => ⟨"8xy4", 0xF00F, 0x8004⟩
  | .subReg _ _ => ⟨"8xy5", 0xF00F, 0x8005⟩
  | .shr _ _ => ⟨"8xy6", 0xF00F, 0x8006⟩
  | .subnReg _ _ => ⟨"8xy7", 0xF00F, 0x8007⟩
  | .shl _ _ => ⟨"8xyE", 0xF00F, 0x800E⟩
  | .sneReg _ _ _ => ⟨"9xyn", 0xF000, 0x9000⟩
  | .ldI _ => ⟨"Annn", 0xF000, 0xA000⟩
  | .jpV0 _ => ⟨"Bnnn", 0xF000, 0xB000⟩
  | .rnd _ _ => ⟨"Cxkk", 0xF000, 0xC000⟩
  | .drw _ _ _ => ⟨"Dxyn", 0xF000, 0xD000⟩
  | .skp _ => ⟨"Ex9E", 0xF0FF, 0xE09E⟩
  | .sknp _ => ⟨"ExA1", 0xF0FF, 0xE0A1⟩
  | .ldVxDt _ => ⟨"Fx07", 0xF0FF, 0xF007⟩
  | .ldVxK _ => ⟨"Fx0A", 0xF0FF, 0xF00A⟩
  | .ldDtVx _ => ⟨"Fx15", 0xF0FF, 0xF015⟩
  | .ldStVx _ => ⟨"Fx18", 0xF0FF, 0xF018⟩
  | .addI _ => ⟨"Fx1E", 0xF0FF, 0xF01E⟩
  | .ldF _ => ⟨"Fx29", 0xF0FF, 0xF029⟩
  | .ldB _ => ⟨"Fx33", 0xF0FF, 0xF033⟩
  | .ldMemVx _ => ⟨"Fx55", 0xF0FF, 0xF055⟩
  | .ldVxMem _ => ⟨"Fx65", 0xF0FF, 0xF065⟩

/-- The family RowMatch: the instruction's word is selected by its row. -/
def RowMatch.Statement (i : Instr) : Prop := (rowOf i).selects (encode i) = true

theorem selects_A {p : String} {op : Nibble} {v : Word} (h : formatA op 0 = v) (nnn : Addr) :
    OpcodeRow.selects ⟨p, 0xF000, v⟩ (formatA op nnn) = true := by
  simp only [OpcodeRow.selects, beq_iff_eq]
  exact (and_maskOp _).trans (by rw [fieldOp_formatA, h])

theorem selects_I {p : String} {op : Nibble} {v : Word} (h : formatA op 0 = v) (x : Nibble) (kk : Byte) :
    OpcodeRow.selects ⟨p, 0xF000, v⟩ (formatI op x kk) = true := by
  simp only [OpcodeRow.selects, beq_iff_eq]
  exact (and_maskOp _).trans (by rw [fieldOp_formatI, h])

theorem selects_S {p : String} {op : Nibble} {kk : Byte} {v : Word} (h : formatI op 0 kk = v) (x : Nibble) :
    OpcodeRow.selects ⟨p, 0xF0FF, v⟩ (formatI op x kk) = true := by
  simp only [OpcodeRow.selects, beq_iff_eq]
  exact (and_maskOpKk _).trans (by rw [fieldOp_formatI, fieldKk_formatI, h])

theorem selects_R {p : String} {op n : Nibble} {v : Word} (h : formatR op 0 0 n = v) (x y : Nibble) :
    OpcodeRow.selects ⟨p, 0xF00F, v⟩ (formatR op x y n) = true := by
  simp only [OpcodeRow.selects, beq_iff_eq]
  exact (and_maskOpN _).trans (by rw [fieldOp_formatR, fieldN_formatR, h])

theorem selects_Rn {p : String} {op : Nibble} {v : Word} (h : formatA op 0 = v) (x y n : Nibble) :
    OpcodeRow.selects ⟨p, 0xF000, v⟩ (formatR op x y n) = true := by
  simp only [OpcodeRow.selects, beq_iff_eq]
  exact (and_maskOp _).trans (by rw [fieldOp_formatR, h])

theorem RowMatch.cls : RowMatch.Statement (.cls) := by unfold RowMatch.Statement; decide
theorem RowMatch.ret : RowMatch.Statement (.ret) := by unfold RowMatch.Statement; decide
theorem RowMatch.jp (nnn : Addr) : RowMatch.Statement (.jp nnn) := selects_A (by decide) _
theorem RowMatch.call (nnn : Addr) : RowMatch.Statement (.call nnn) := selects_A (by decide) _
theorem RowMatch.seImm (x : Reg) (kk : Byte) : RowMatch.Statement (.seImm x kk) := selects_I (by decide) _ _
theorem RowMatch.sneImm (x : Reg) (kk : Byte) : RowMatch.Statement (.sneImm x kk) := selects_I (by decide) _ _
theorem RowMatch.seReg (x : Reg) (y : Reg) (n : Nibble) : RowMatch.Statement (.seReg x y n) := selects_Rn (by decide) _ _ _
theorem RowMatch.ldImm (x : Reg) (kk : Byte) : RowMatch.Statement (.ldImm x kk) := selects_I (by decide) _ _
theorem RowMatch.addImm (x : Reg) (kk : Byte) : RowMatch.Statement (.addImm x kk) := selects_I (by decide) _ _
theorem RowMatch.ldReg (x : Reg) (y : Reg) : RowMatch.Statement (.ldReg x y) := selects_R (by decide) _ _
theorem RowMatch.orReg (x : Reg) (y : Reg) : RowMatch.Statement (.orReg x y) := selects_R (by decide) _ _
theorem RowMatch.andReg (x : Reg) (y : Reg) : RowMatch.Statement (.andReg x y) := selects_R (by decide) _ _
theorem RowMatch.xorReg (x : Reg) (y : Reg) : RowMatch.Statement (.xorReg x y) := selects_R (by decide) _ _
theorem RowMatch.addReg (x : Reg) (y : Reg) : RowMatch.Statement (.addReg x y) := selects_R (by decide) _ _
theorem RowMatch.subReg (x : Reg) (y : Reg) : RowMatch.Statement (.subReg x y) := selects_R (by decide) _ _
theorem RowMatch.shr (x : Reg) (y : Nibble) : RowMatch.Statement (.shr x y) := selects_R (by decide) _ _
theorem RowMatch.subnReg (x : Reg) (y : Reg) : RowMatch.Statement (.subnReg x y) := selects_R (by decide) _ _
theorem RowMatch.shl (x : Reg) (y : Nibble) : RowMatch.Statement (.shl x y) := selects_R (by decide) _ _
theorem RowMatch.sneReg (x : Reg) (y : Reg) (n : Nibble) : RowMatch.Statement (.sneReg x y n) := selects_Rn (by decide) _ _ _
theorem RowMatch.ldI (nnn : Addr) : RowMatch.Statement (.ldI nnn) := selects_A (by decide) _
theorem RowMatch.jpV0 (nnn : Addr) : RowMatch.Statement (.jpV0 nnn) := selects_A (by decide) _
theorem RowMatch.rnd (x : Reg) (kk : Byte) : RowMatch.Statement (.rnd x kk) := selects_I (by decide) _ _
theorem RowMatch.drw (x : Reg) (y : Reg) (n : Nibble) : RowMatch.Statement (.drw x y n) := selects_Rn (by decide) _ _ _
theorem RowMatch.skp (x : Reg) : RowMatch.Statement (.skp x) := selects_S (by decide) _
theorem RowMatch.sknp (x : Reg) : RowMatch.Statement (.sknp x) := selects_S (by decide) _
theorem RowMatch.ldVxDt (x : Reg) : RowMatch.Statement (.ldVxDt x) := selects_S (by decide) _
theorem RowMatch.ldVxK (x : Reg) : RowMatch.Statement (.ldVxK x) := selects_S (by decide) _
theorem RowMatch.ldDtVx (x : Reg) : RowMatch.Statement (.ldDtVx x) := selects_S (by decide) _
theorem RowMatch.ldStVx (x : Reg) : RowMatch.Statement (.ldStVx x) := selects_S (by decide) _
theorem RowMatch.addI (x : Reg) : RowMatch.Statement (.addI x) := selects_S (by decide) _
theorem RowMatch.ldF (x : Reg) : RowMatch.Statement (.ldF x) := selects_S (by decide) _
theorem RowMatch.ldB (x : Reg) : RowMatch.Statement (.ldB x) := selects_S (by decide) _
theorem RowMatch.ldMemVx (x : Reg) : RowMatch.Statement (.ldMemVx x) := selects_S (by decide) _
theorem RowMatch.ldVxMem (x : Reg) : RowMatch.Statement (.ldVxMem x) := selects_S (by decide) _

end Sys2Proof.Laws
end

