-- ==== Sys2Proof/Machine/Environment.lean ====
section
/-! DEFINITION. The operations of the environment (spec 00_scope R9): reset, load_rom, step, tick, key_set, snapshot, and which of
them has a meaning when (70_reset_and_hazards R262). -/

namespace Sys2Proof.Machine

/-- R260: `reset`, from any state. The parameters stay, and so does the count of draws: a draw after a reset is a fresh
one too (log 19). -/
def resetFrom (s : State) : State := setDraws s.draws (State.resetWith s.cfg)

/-- R263: `load_rom(image)`; an over-long image leaves M untouched and raises RomTooLarge (R227). -/
def loadRom (image : List Byte) (s : State) : State :=
  if romFits image then storeBytes programBase image s
  else raise .romTooLarge (BitVec.ofNat 16 (min image.length 0xFFFF)) s

/-- R236: a timer after one tick, floored at 0. -/
def countDown (b : Byte) : Byte := if b = 0 then 0 else b - 1

/-- R236: `tick`, in every RUN state. -/
def tick (s : State) : State := setSt (countDown s.st) (setDt (countDown s.dt) s)

/-- R241: the end of a key wait: the key's number goes to the waiting register and the core runs again. -/
def wake (k : Key) (s : State) : State :=
  match s.run with
  | .waitingForKey r => setRun .running (setReg r (BitVec.ofNat 8 k.val) s)
  | .running => s
  | .faulted _ _ => s

/-- R240: `key_set(k, b)`; a transition to pressed ends a key wait. -/
def keySet (k : Key) (b : Bool) (s : State) : State :=
  if b && !s.keys[k] then wake k (setKeys (s.keys.set k b) s) else setKeys (s.keys.set k b) s

/-- R9: what the environment can do to the core. -/
inductive Operation where
  | reset
  | loadRom (image : List Byte)
  | step
  | tick
  | keySet (k : Key) (b : Bool)
  | snapshot
  deriving DecidableEq, Repr

/-- R262: how far the boot sequence has come. It is a fact about the environment, not state of the core (R35). -/
inductive BootPhase where
  /-- no `reset` yet -/
  | off
  /-- after a `reset`, before any `step` or `load_rom` -/
  | fresh
  /-- after a `reset` and a `load_rom` -/
  | loaded
  /-- after a `reset` and a `step` with no `load_rom` before it -/
  | stepped
  deriving DecidableEq, Repr

/-- R262, U8: the phase after an operation, or `none` where the operation has no meaning: before the first `reset`, and for
a `load_rom` after a `step` or a second `load_rom`. A `step` with no `load_rom` has one (log 17). -/
def bootNext (p : BootPhase) (op : Operation) : Option BootPhase :=
  match op with
  | .reset => some .fresh
  | .loadRom _ => if p = .fresh then some .loaded else none
  | .step => if p = .off then none else if p = .fresh then some .stepped else some p
  | .tick => if p = .off then none else some p
  | .keySet _ _ => if p = .off then none else some p
  | .snapshot => if p = .off then none else some p

/-- The core and how far its boot sequence has come. -/
structure Session where
  core : State
  phase : BootPhase
  deriving DecidableEq, Repr

/-- The session right after a `reset`. -/
def Session.booted : Session := { core := State.reset, phase := .fresh }

/-- R9: the state change of one operation on the core; `snapshot` reads the framebuffer and changes nothing (R173). -/
def perform (op : Operation) (s : State) : Host.Outcome State Fault Refusal :=
  match op with
  | .reset => .next (resetFrom s)
  | .loadRom image => .next (loadRom image s)
  | .step => step s
  | .tick => .next (tick s)
  | .keySet k b => .next (keySet k b s)
  | .snapshot => .next s

/-- An outcome of the core, as an outcome of the session in phase `p`. -/
def inPhase (p : BootPhase) : Host.Outcome State Fault Refusal → Host.Outcome Session Fault Refusal
  | .next s => .next { core := s, phase := p }
  | .fault r => .fault r
  | .refused r => .refused r

/-- R9, R262: one operation of the environment; the model has no move for one without a meaning (U8). -/
def operate (op : Operation) (c : Session) : Host.Outcome Session Fault Refusal :=
  match bootNext c.phase op with
  | some p => inPhase p (perform op c.core)
  | none => .refused .outsideBootOrder

/-- R3: operations one after another, each running to completion. -/
def operateAll : List Operation → Session → Host.Outcome Session Fault Refusal
  | [], c => .next c
  | op :: rest, c =>
    match operate op c with
    | .next d => operateAll rest d
    | .fault r => .fault r
    | .refused r => .refused r

/-- R269: one frame of the document's driver: the pending key events, `speed` steps, one tick, one snapshot. -/
def driverFrame (speed : Nat) (events : List (Key × Bool)) : List Operation :=
  events.map (fun e => .keySet e.1 e.2) ++ List.replicate speed .step ++ [.tick, .snapshot]

end Sys2Proof.Machine
end

