-- ==== Sys2Proof/Safety.lean ====
section
/-! DEFINITION. The terms the claims are stated in: the invariant of the core, which parts of the state an instruction may change (spec
10_state R42), which error it may raise (60_exceptions R220, R228), when it runs to its own effect, the wrapped sprite
mask (43_display R177), and the order of operations the environment owes (70 R262). -/

namespace Sys2Proof.Safety

open Sys2Proof.Machine

/-! ## The invariant -/

/-- R220: the `info` an error records. -/
def errorInfoLegal (e : ErrorKind) (info : Word) : Bool :=
  match e with
  | .invalidOpcode => decide (decode info = none)
  | .stackUnderflow => decide (info = 0)
  | .stackOverflow => decide (info = 0)
  | .memoryAccessOutOfRange => decide (4096 ≤ info.toNat)
  | .romTooLarge => decide (romMax < info.toNat)
  | .keyIndexOutOfRange => decide (16 ≤ info.toNat) && decide (info.toNat ≤ 255)

/-- A RUN the core can have: an error's `info` is one of those R220 lists for it. -/
def runLegal (r : RunState) : Bool :=
  match r with
  | .running => true
  | .waitingForKey _ => true
  | .faulted e info => errorInfoLegal e info

/-- What holds at reset and after every operation: a configuration the spec admits, memory in its canonical form, a
stack array of STACK_DEPTH entries with SP in range (R28) whose live entries are return addresses (R125: 2 to 0x1000),
a PC no rule can put above 0x10FE (R27), and a legal RUN. -/
structure CoreInv (s : State) : Prop where
  config : s.cfg.wf = true
  memory : memWf s.cfg s.mem = true
  stackSize : s.stack.length = s.cfg.stackDepth
  stackPointer : s.sp ≤ s.cfg.stackDepth
  liveEntries : ∀ a ∈ s.stack.take s.sp, 2 ≤ a.toNat ∧ a.toNat ≤ 0x1000
  pcRange : s.pc.toNat ≤ 0x10FE
  run : runLegal s.run = true

/-! ## Frames -/

/-- The parts of the state; `stack` is `S` with `SP`. The parameters are no part: nothing changes them. -/
inductive Part where
  | v | i | pc | stack | dt | st | mem | fb | keys | run | draws
  deriving DecidableEq, Repr

/-- The part reads the same in both states; memory and framebuffer cell by cell. -/
def samePart (p : Part) (s t : State) : Prop :=
  match p with
  | .v => ∀ x, reg t x = reg s x
  | .i => t.i = s.i
  | .pc => t.pc = s.pc
  | .stack => t.stack = s.stack ∧ t.sp = s.sp
  | .dt => t.dt = s.dt
  | .st => t.st = s.st
  | .mem => ∀ a, byteAt t a = byteAt s a
  | .fb => ∀ y x, pixelAt t.fb y x = pixelAt s.fb y x
  | .keys => ∀ k : Key, t.keys[k] = s.keys[k]
  | .run => t.run = s.run
  | .draws => t.draws = s.draws

/-- From `s` to `t` only the parts listed may change. -/
def ChangesOnly (ps : List Part) (s t : State) : Prop := t.cfg = s.cfg ∧ ∀ p, p ∉ ps → samePart p s t

/-- `t` is `s` with the error raised and no other part changed (R221). -/
def RaisedFrom (e : ErrorKind) (info : Word) (s t : State) : Prop :=
  t.run = .faulted e info ∧ ChangesOnly [.run] s t

/-- R42: the parts an instruction writes when it runs to its own effect, beyond the fetch's advance of PC. -/
def writes (i : Instr) : List Part :=
  match i with
  | .cls => [.fb]
  | .ret => [.stack, .pc]
  | .jp _ => [.pc]
  | .call _ => [.stack, .pc]
  | .seImm _ _ => [.pc]
  | .sneImm _ _ => [.pc]
  | .seReg _ _ _ => [.pc]
  | .ldImm _ _ => [.v]
  | .addImm _ _ => [.v]
  | .ldReg _ _ => [.v]
  | .orReg _ _ => [.v]
  | .andReg _ _ => [.v]
  | .xorReg _ _ => [.v]
  | .addReg _ _ => [.v]
  | .subReg _ _ => [.v]
  | .shr _ _ => [.v]
  | .subnReg _ _ => [.v]
  | .shl _ _ => [.v]
  | .sneReg _ _ _ => [.pc]
  | .ldI _ => [.i]
  | .jpV0 _ => [.pc]
  | .rnd _ _ => [.v, .draws]
  | .drw _ _ _ => [.v, .fb]
  | .skp _ => [.pc]
  | .sknp _ => [.pc]
  | .ldVxDt _ => [.v]
  | .ldVxK _ => [.run]
  | .ldDtVx _ => [.dt]
  | .ldStVx _ => [.st]
  | .addI _ => [.i]
  | .ldF _ => [.i]
  | .ldB _ => [.mem]
  | .ldMemVx _ => [.mem]
  | .ldVxMem _ => [.v]

/-- R20, R24, R42: the registers an instruction may write, the flag register among them where it sets the flag. -/
def writesReg (i : Instr) (j : Reg) : Bool :=
  match i with
  | .ldImm x _ => j == x
  | .addImm x _ => j == x
  | .ldReg x _ => j == x
  | .orReg x _ => j == x
  | .andReg x _ => j == x
  | .xorReg x _ => j == x
  | .addReg x _ => j == x || j == vf
  | .subReg x _ => j == x || j == vf
  | .shr x _ => j == x || j == vf
  | .subnReg x _ => j == x || j == vf
  | .shl x _ => j == x || j == vf
  | .rnd x _ => j == x
  | .drw _ _ _ => j == vf
  | .ldVxDt x => j == x
  | .ldVxMem x => decide (j ≤ x)
  | .cls => false
  | .ret => false
  | .jp _ => false
  | .call _ => false
  | .seImm _ _ => false
  | .sneImm _ _ => false
  | .seReg _ _ _ => false
  | .sneReg _ _ _ => false
  | .ldI _ => false
  | .jpV0 _ => false
  | .skp _ => false
  | .sknp _ => false
  | .ldVxK _ => false
  | .ldDtVx _ => false
  | .ldStVx _ => false
  | .addI _ => false
  | .ldF _ => false
  | .ldB _ => false
  | .ldMemVx _ => false

/-- R23: the six instructions that set VF as a flag. -/
def setsFlag (i : Instr) : Bool :=
  match i with
  | .addReg _ _ => true
  | .subReg _ _ => true
  | .shr _ _ => true
  | .subnReg _ _ => true
  | .shl _ _ => true
  | .drw _ _ _ => true
  | .cls => false
  | .ret => false
  | .jp _ => false
  | .call _ => false
  | .seImm _ _ => false
  | .sneImm _ _ => false
  | .seReg _ _ _ => false
  | .ldImm _ _ => false
  | .addImm _ _ => false
  | .ldReg _ _ => false
  | .orReg _ _ => false
  | .andReg _ _ => false
  | .xorReg _ _ => false
  | .sneReg _ _ _ => false
  | .ldI _ => false
  | .jpV0 _ => false
  | .rnd _ _ => false
  | .skp _ => false
  | .sknp _ => false
  | .ldVxDt _ => false
  | .ldVxK _ => false
  | .ldDtVx _ => false
  | .ldStVx _ => false
  | .addI _ => false
  | .ldF _ => false
  | .ldB _ => false
  | .ldMemVx _ => false
  | .ldVxMem _ => false

/-- R228: the one error an instruction can raise in execute. -/
def executeError (i : Instr) : Option ErrorKind :=
  match i with
  | .ret => some .stackUnderflow
  | .call _ => some .stackOverflow
  | .drw _ _ _ => some .memoryAccessOutOfRange
  | .ldB _ => some .memoryAccessOutOfRange
  | .ldMemVx _ => some .memoryAccessOutOfRange
  | .ldVxMem _ => some .memoryAccessOutOfRange
  | .skp _ => some .keyIndexOutOfRange
  | .sknp _ => some .keyIndexOutOfRange
  | .cls => none
  | .jp _ => none
  | .seImm _ _ => none
  | .sneImm _ _ => none
  | .seReg _ _ _ => none
  | .ldImm _ _ => none
  | .addImm _ _ => none
  | .ldReg _ _ => none
  | .orReg _ _ => none
  | .andReg _ _ => none
  | .xorReg _ _ => none
  | .addReg _ _ => none
  | .subReg _ _ => none
  | .shr _ _ => none
  | .subnReg _ _ => none
  | .shl _ _ => none
  | .sneReg _ _ _ => none
  | .ldI _ => none
  | .jpV0 _ => none
  | .rnd _ _ => none
  | .ldVxDt _ => none
  | .ldVxK _ => none
  | .ldDtVx _ => none
  | .ldStVx _ => none
  | .addI _ => none
  | .ldF _ => none

/-- The condition on state and operands under which the spec gives an instruction its own effect and no error: an entry to
pop (R122), room to push (R125), a key number (R190), addresses below 4096 (R67, R176, R206 to R208). -/
def Unhindered (i : Instr) (s : State) : Prop :=
  match i with
  | .ret => 0 < s.sp ∧ s.sp ≤ s.stack.length
  | .call _ => s.sp < s.cfg.stackDepth ∧ s.stack.length = s.cfg.stackDepth
  | .drw _ _ n => n.toNat = 0 ∨ s.i.toNat + n.toNat ≤ 4096
  | .ldB _ => s.i.toNat + 3 ≤ 4096
  | .ldMemVx x => s.i.toNat + x.val + 1 ≤ 4096
  | .ldVxMem x => s.i.toNat + x.val + 1 ≤ 4096
  | .skp x => (reg s x).toNat ≤ 15
  | .sknp x => (reg s x).toNat ≤ 15
  | .cls => True
  | .jp _ => True
  | .seImm _ _ => True
  | .sneImm _ _ => True
  | .seReg _ _ _ => True
  | .ldImm _ _ => True
  | .addImm _ _ => True
  | .ldReg _ _ => True
  | .orReg _ _ => True
  | .andReg _ _ => True
  | .xorReg _ _ => True
  | .addReg _ _ => True
  | .subReg _ _ => True
  | .shr _ _ => True
  | .subnReg _ _ => True
  | .shl _ _ => True
  | .sneReg _ _ _ => True
  | .ldI _ => True
  | .jpV0 _ => True
  | .rnd _ _ => True
  | .ldVxDt _ => True
  | .ldVxK _ => True
  | .ldDtVx _ => True
  | .ldStVx _ => True
  | .addI _ => True
  | .ldF _ => True

/-! ## Sprites -/

/-- R177: the wrapped sprite mask: the pixel `(x, y)` is under a 1 bit of the sprite of `n` rows at `I`, drawn with its
top left corner at `(ox, oy)`; bit 7 of a row is its leftmost pixel. -/
def spriteMask (s : State) (ox oy n : Nat) (y : Fin 32) (x : Fin 64) : Bool :=
  (List.range n).any fun row => (List.range 8).any fun col =>
    decide ((oy + row) % 32 = y.val) && decide ((ox + col) % 64 = x.val) &&
      (byteAt s (s.i.toNat + row)).getLsbD (7 - col)

/-! ## What the next fetch sees -/

/-- R75: the bytes `hi`, `lo` at PC and PC + 1 of `s` after bytes have been stored from `a` on: a byte that a store covers
is the one stored, the other is as before. -/
def StoreSeenByFetch (s : State) (a : Nat) (bytes : List Byte) (hi lo : Byte) : Prop :=
  (∀ k b, bytes[k]? = some b → (a + k = s.pc.toNat → hi = b) ∧ (a + k = s.pc.toNat + 1 → lo = b)) ∧
  (s.pc.toNat < a ∨ a + bytes.length ≤ s.pc.toNat → hi = byteAt s s.pc.toNat) ∧
  (s.pc.toNat + 1 < a ∨ a + bytes.length ≤ s.pc.toNat + 1 → lo = byteAt s (s.pc.toNat + 1))

/-! ## What the environment owes -/

/-- R262: every operation of the sequence has a meaning where it stands. -/
def bootAllows (p : BootPhase) : List Operation → Bool
  | [] => true
  | op :: rest =>
    match bootNext p op with
    | some q => bootAllows q rest
    | none => false

/-- R262: the operation is the one the environment owes in this phase: `reset`, then one `load_rom` that succeeds, then any
of the others. -/
def bootOwes (p : BootPhase) (op : Operation) : Bool :=
  match op with
  | .reset => true
  | .loadRom image => decide (p = .fresh) && romFits image
  | .step => decide (p = .loaded)
  | .tick => decide (p = .loaded)
  | .keySet _ _ => decide (p = .loaded)
  | .snapshot => decide (p = .loaded)

/-- R262: `reset`, one `load_rom` that succeeds, then any sequence of the other operations; or `reset` again. -/
def bootOrder (p : BootPhase) : List Operation → Bool
  | [] => true
  | op :: rest =>
    bootOwes p op &&
      (match bootNext p op with
      | some q => bootOrder q rest
      | none => false)

end Sys2Proof.Safety
end

