-- ==== Sys2Proof/Certificates/Slice0/Obligations.lean ====
section
/-! DEFINITION. The statements for the provers, by the numbered rules of the spec. "Log n" is notes/assumptions/n.md. A statement that
says what an instruction does has as its conclusion that `exec` answers a next state, in which the PC has been
advanced before (R120). -/

open Sys2Proof Sys2Proof.Machine Sys2Proof.Safety

/-! ## Encoding -/

/-- R95: one word or two of each family 0 to F, written out from the opcode map, is the instruction it stands for. -/
def Obligations.SpecWordsDecode : Prop :=
  decode 0x00E0 = some .cls ∧ decode 0x00EE = some .ret ∧ decode 0x1ABC = some (.jp 0xABC) ∧
  decode 0x2FED = some (.call 0xFED) ∧ decode 0x3A2B = some (.seImm 0xA 0x2B) ∧
  decode 0x4B1C = some (.sneImm 0xB 0x1C) ∧ decode 0x5123 = some (.seReg 1 2 3) ∧
  decode 0x6A0F = some (.ldImm 0xA 0x0F) ∧ decode 0x7BF0 = some (.addImm 0xB 0xF0) ∧
  decode 0x8127 = some (.subnReg 1 2) ∧ decode 0x9EDC = some (.sneReg 0xE 0xD 0xC) ∧
  decode 0xA987 = some (.ldI 0x987) ∧ decode 0xB123 = some (.jpV0 0x123) ∧ decode 0xC30F = some (.rnd 3 0x0F) ∧
  decode 0xD125 = some (.drw 1 2 5) ∧ decode 0xE29E = some (.skp 2) ∧ decode 0xF50A = some (.ldVxK 5) ∧
  decode 0xF265 = some (.ldVxMem 2) ∧ decode 0x0000 = none

/-- R94, R95: decoding the word of an instruction gives the instruction back, with every operand at every value. -/
def Obligations.DecodeOfEncode : Prop := ∀ i : Instr, decode (encode i) = some i

/-- R94, R95: a word that decodes is the word of the instruction it decodes to, so no two words mean the same. -/
def Obligations.EncodeOfDecode : Prop := ∀ (w : Word) (i : Instr), decode w = some i → encode i = w

/-- R94, R95, R96: the decode procedure accepts exactly the words that some row of the opcode map selects. -/
def Obligations.DecodeAcceptsOpcodeMap : Prop := ∀ w : Word, (decode w).isSome = wordListed w

/-- R94: no word is selected by two rows of the opcode map. -/
def Obligations.OpcodeRowsDisjoint : Prop :=
  ∀ r ∈ opcodeRows, ∀ q ∈ opcodeRows, ∀ w : Word, r.selects w = true → q.selects w = true → r = q

/-- R96: the invalid words are exactly those of the four families it lists. -/
def Obligations.InvalidWordsAreListed : Prop :=
  ∀ w : Word, decode w = none ↔
    (fieldOp w = 0x0 ∧ w ≠ 0x00E0 ∧ w ≠ 0x00EE) ∨
    (fieldOp w = 0x8 ∧ fieldN w ∈ [0x8#4, 0x9#4, 0xA#4, 0xB#4, 0xC#4, 0xD#4, 0xF#4]) ∨
    (fieldOp w = 0xE ∧ fieldKk w ∉ [0x9E#8, 0xA1#8]) ∨
    (fieldOp w = 0xF ∧
      fieldKk w ∉ [0x07#8, 0x0A#8, 0x15#8, 0x18#8, 0x1E#8, 0x29#8, 0x33#8, 0x55#8, 0x65#8])

/-! ## The step cycle -/

/-- R120: a running core whose two bytes at PC decode executes that instruction, with PC advanced by 2 before. -/
def Obligations.StepRunsDecodedInstruction : Prop :=
  ∀ (s : State) (i : Instr), s.run = .running → s.pc.toNat ≤ 4094 →
    decode (wordOfBytes (byteAt s s.pc.toNat) (byteAt s (s.pc.toNat + 1))) = some i →
    step s = exec i (setPc (s.pc + 2) s)

/-- R121 (the spec's decision D9, log 10): a PC above 4094 makes the fetch raise, with the lowest bad address, before
the advance. -/
def Obligations.FetchAboveMemoryRaises : Prop :=
  ∀ s : State, s.run = .running → 4094 < s.pc.toNat →
    ∃ t info, step s = .next t ∧ info.toNat = max s.pc.toNat 4096 ∧ t.pc = s.pc ∧
      RaisedFrom .memoryAccessOutOfRange info s t

/-- R222, R120 (the state a raise leaves: the spec's decisions D6 and D9, log 1 and log 10): a fetched word that no
row of the opcode map selects raises InvalidOpcode with the word; only RUN and the PC advance change. -/
def Obligations.UnlistedWordRaises : Prop :=
  ∀ (s : State) (w : Word), s.run = .running → s.pc.toNat ≤ 4094 →
    w = wordOfBytes (byteAt s s.pc.toNat) (byteAt s (s.pc.toNat + 1)) → wordListed w = false →
    ∃ t, step s = .next t ∧ t.run = .faulted .invalidOpcode w ∧ t.pc = s.pc + 2 ∧ ChangesOnly [.run, .pc] s t

/-- R132 (the spec's decision D12, log 14): a core that waits or has faulted holds. -/
def Obligations.StepHoldsUnlessRunning : Prop := ∀ s : State, s.run ≠ .running → step s = .next s

/-- R230 (the spec's decision D6, log 1): no sequence of steps, ticks, key events and snapshots leaves a faulted
state, or writes anything but timers and keys in it; reset leaves it. -/
def Obligations.FaultedIsSticky : Prop :=
  ∀ (e : ErrorKind) (info : Word) (c : Session), c.core.run = .faulted e info →
    (c.phase ≠ .off → ∀ ops : List Operation,
      (∀ op ∈ ops, op = .step ∨ op = .tick ∨ op = .snapshot ∨ ∃ k b, op = .keySet k b) →
      ∃ d, operateAll ops c = .next d ∧ d.core.run = .faulted e info ∧ ChangesOnly [.dt, .st, .keys] c.core d.core) ∧
    (∃ d, operate .reset c = .next d ∧ d.core.run = .running)

/-- The opcode table's word, placed where the fetch reads, is the instruction the next step executes, from any state
whose memory is in canonical form (log 18). -/
def Obligations.PlacedWordRuns : Prop :=
  ∀ (s : State) (nbits w : Nat) (i : Instr), memWf s.cfg s.mem = true → decodeTableWord nbits w = some i →
    step (s.withFetchWord nbits w) =
      exec i (setPc ((s.withFetchWord nbits w).pc + 2) (s.withFetchWord nbits w))

/-! ## Control transfer -/

/-- R122 (the state a raise leaves: the spec's decisions D6 and D9, log 1 and log 10): RET pops the stack into PC,
leaving the array as it was; on an empty stack it raises StackUnderflow. -/
def Obligations.ReturnPopsStack : Prop :=
  ∀ s : State,
    (s.sp = 0 → ∃ t, exec .ret s = .next t ∧ RaisedFrom .stackUnderflow 0 s t) ∧
    (0 < s.sp → s.sp ≤ s.stack.length →
      ∃ t, exec .ret s = .next t ∧ t.sp + 1 = s.sp ∧ s.stack[t.sp]? = some t.pc ∧ t.stack = s.stack ∧
        ChangesOnly [.stack, .pc] s t)

/-- R125 (the state a raise leaves: the spec's decisions D6 and D9, log 1 and log 10): CALL pushes the advanced PC and
jumps; with STACK_DEPTH entries in use it raises StackOverflow. -/
def Obligations.CallPushesPc : Prop :=
  ∀ (nnn : Addr) (s : State), s.stack.length = s.cfg.stackDepth →
    (s.sp = s.cfg.stackDepth → ∃ t, exec (.call nnn) s = .next t ∧ RaisedFrom .stackOverflow 0 s t) ∧
    (s.sp < s.cfg.stackDepth →
      ∃ t, exec (.call nnn) s = .next t ∧ t.sp = s.sp + 1 ∧ t.stack[s.sp]? = some s.pc ∧
        (∀ j, j ≠ s.sp → t.stack[j]? = s.stack[j]?) ∧ t.pc.toNat = nnn.toNat ∧ ChangesOnly [.stack, .pc] s t)

/-- R123, R124: the two jumps; the sum of the second is not reduced modulo 4096. -/
def Obligations.JumpsSetPc : Prop :=
  ∀ (nnn : Addr) (s : State),
    (∃ t, exec (.jp nnn) s = .next t ∧ t.pc.toNat = nnn.toNat ∧ ChangesOnly [.pc] s t) ∧
    (∃ t, exec (.jpV0 nnn) s = .next t ∧ t.pc.toNat = nnn.toNat + (reg s 0).toNat ∧ ChangesOnly [.pc] s t)

/-- R126 to R129, R131: the four compares skip by a further 2 when their condition holds, for every value of the
ignored nibble, and write nothing else. -/
def Obligations.ComparesSkip : Prop :=
  ∀ (x y : Reg) (kk : Byte) (n : Nibble) (s : State),
    (∃ t, exec (.seImm x kk) s = .next t ∧ t.pc = (if reg s x = kk then s.pc + 2 else s.pc) ∧
      ChangesOnly [.pc] s t) ∧
    (∃ t, exec (.sneImm x kk) s = .next t ∧ t.pc = (if reg s x = kk then s.pc else s.pc + 2) ∧
      ChangesOnly [.pc] s t) ∧
    (∃ t, exec (.seReg x y n) s = .next t ∧ t.pc = (if reg s x = reg s y then s.pc + 2 else s.pc) ∧
      ChangesOnly [.pc] s t) ∧
    (∃ t, exec (.sneReg x y n) s = .next t ∧ t.pc = (if reg s x = reg s y then s.pc else s.pc + 2) ∧
      ChangesOnly [.pc] s t)

/-- R122, R125, test S8: a CALL followed by a RET comes back to the instruction after the CALL, with the same entries
in use and no entry of the stack array changed but the one the CALL pushed. -/
def Obligations.CallThenReturn : Prop :=
  ∀ (nnn : Addr) (s : State), s.stack.length = s.cfg.stackDepth → s.sp < s.cfg.stackDepth →
    ∃ t u, exec (.call nnn) s = .next t ∧ exec .ret t = .next u ∧ u.pc = s.pc ∧ u.sp = s.sp ∧
      u.stack.take u.sp = s.stack.take s.sp ∧ (∀ j, j ≠ s.sp → u.stack[j]? = s.stack[j]?) ∧ ChangesOnly [.stack] s u

/-- R123, R268: a jump to its own address is a step that changes nothing. -/
def Obligations.SelfJumpChangesNothing : Prop :=
  ∀ (nnn : Addr) (s : State), s.run = .running → s.pc.toNat ≤ 4094 → s.pc.toNat = nnn.toNat →
    wordOfBytes (byteAt s s.pc.toNat) (byteAt s (s.pc.toNat + 1)) = encode (.jp nnn) → step s = .next s

/-! ## Immediates and the ALU -/

/-- R140, R141, R151 to R154: the six instructions that write a register and no flag. -/
def Obligations.PlainRegisterResults : Prop :=
  ∀ (x y : Reg) (kk : Byte) (s : State),
    (∃ t, exec (.ldImm x kk) s = .next t ∧ reg t x = kk ∧ (∀ j, j ≠ x → reg t j = reg s j) ∧
      ChangesOnly [.v] s t) ∧
    (∃ t, exec (.addImm x kk) s = .next t ∧ (reg t x).toNat = ((reg s x).toNat + kk.toNat) % 256 ∧
      (∀ j, j ≠ x → reg t j = reg s j) ∧ ChangesOnly [.v] s t) ∧
    (∃ t, exec (.ldReg x y) s = .next t ∧ reg t x = reg s y ∧ (∀ j, j ≠ x → reg t j = reg s j) ∧
      ChangesOnly [.v] s t) ∧
    (∃ t, exec (.orReg x y) s = .next t ∧ (∀ b, (reg t x).getLsbD b = ((reg s x).getLsbD b || (reg s y).getLsbD b)) ∧
      (∀ j, j ≠ x → reg t j = reg s j) ∧ ChangesOnly [.v] s t) ∧
    (∃ t, exec (.andReg x y) s = .next t ∧ (∀ b, (reg t x).getLsbD b = ((reg s x).getLsbD b && (reg s y).getLsbD b)) ∧
      (∀ j, j ≠ x → reg t j = reg s j) ∧ ChangesOnly [.v] s t) ∧
    (∃ t, exec (.xorReg x y) s = .next t ∧ (∀ b, (reg t x).getLsbD b = ((reg s x).getLsbD b ^^ (reg s y).getLsbD b)) ∧
      (∀ j, j ≠ x → reg t j = reg s j) ∧ ChangesOnly [.v] s t)

/-- R142: LD I, nnn. -/
def Obligations.IndexLoad : Prop :=
  ∀ (nnn : Addr) (s : State), ∃ t, exec (.ldI nnn) s = .next t ∧ t.i.toNat = nnn.toNat ∧ ChangesOnly [.i] s t

/-- R143 (the spec's decision D4, log 2): Vx is the free byte of this execution masked with kk, whatever that byte is,
and the next draw is another one. -/
def Obligations.RandomByteIsMasked : Prop :=
  ∀ (x : Reg) (kk : Byte) (s : State),
    ∃ t, exec (.rnd x kk) s = .next t ∧
      (∀ b, (reg t x).getLsbD b = ((Config.draw8 s.draws).getLsbD b && kk.getLsbD b)) ∧
      t.draws = s.draws + 1 ∧ (∀ j, j ≠ x → reg t j = reg s j) ∧ ChangesOnly [.v, .draws] s t

/-- R155, R156, R158, R160: the results reduced modulo 256, the flag written last, so that with `x = 0xF` it wins; the
operands are those from before the instruction. -/
def Obligations.AddSubWriteFlagLast : Prop :=
  ∀ (x y : Reg) (s : State),
    (∃ t, exec (.addReg x y) s = .next t ∧
      (x ≠ vf → (reg t x).toNat = ((reg s x).toNat + (reg s y).toNat) % 256) ∧
      reg t vf = (if 255 < (reg s x).toNat + (reg s y).toNat then 1 else 0) ∧
      (∀ j, j ≠ x → j ≠ vf → reg t j = reg s j) ∧ ChangesOnly [.v] s t) ∧
    (∃ t, exec (.subReg x y) s = .next t ∧
      (x ≠ vf → (reg t x).toNat = (256 + (reg s x).toNat - (reg s y).toNat) % 256) ∧
      reg t vf = (if (reg s y).toNat ≤ (reg s x).toNat then 1 else 0) ∧
      (∀ j, j ≠ x → j ≠ vf → reg t j = reg s j) ∧ ChangesOnly [.v] s t) ∧
    (∃ t, exec (.subnReg x y) s = .next t ∧
      (x ≠ vf → (reg t x).toNat = (256 + (reg s y).toNat - (reg s x).toNat) % 256) ∧
      reg t vf = (if (reg s x).toNat ≤ (reg s y).toNat then 1 else 0) ∧
      (∀ j, j ≠ x → j ≠ vf → reg t j = reg s j) ∧ ChangesOnly [.v] s t)

/-- R157, R159, R99: Vx is shifted in place by one bit for every value of the unused field y, and VF is the bit
shifted out, written last. -/
def Obligations.ShiftsWriteFlagLast : Prop :=
  ∀ (x : Reg) (y : Nibble) (s : State),
    (∃ t, exec (.shr x y) s = .next t ∧
      (x ≠ vf → (reg t x).toNat = (reg s x).toNat / 2) ∧
      (reg t vf).toNat = (reg s x).toNat % 2 ∧
      (∀ j, j ≠ x → j ≠ vf → reg t j = reg s j) ∧ ChangesOnly [.v] s t) ∧
    (∃ t, exec (.shl x y) s = .next t ∧
      (x ≠ vf → (reg t x).toNat = (reg s x).toNat * 2 % 256) ∧
      (reg t vf).toNat = (reg s x).toNat / 128 ∧
      (∀ j, j ≠ x → j ≠ vf → reg t j = reg s j) ∧ ChangesOnly [.v] s t)

/-! ## Display -/

/-- R175, R172: CLS turns every pixel off and changes nothing else. -/
def Obligations.ClearTurnsPixelsOff : Prop :=
  ∀ s : State, ∃ t, exec .cls s = .next t ∧ (∀ y x, pixelAt t.fb y x = false) ∧ ChangesOnly [.fb] s t

/-- R171: set_pixel toggles the pixel at the coordinates modulo 64 and 32, negative ones too, leaves every other pixel
alone, and answers whether the pixel is now OFF. -/
def Obligations.SetPixelTogglesOne : Prop :=
  ∀ (f : Frame) (px py : Int) (y : Fin 32) (x : Fin 64),
    (((x.val : Int) = px % 64 ∧ (y.val : Int) = py % 32) →
      pixelAt (setPixel f px py).1 y x = !pixelAt f y x ∧ (setPixel f px py).2 = pixelAt f y x) ∧
    (¬((x.val : Int) = px % 64 ∧ (y.val : Int) = py % 32) →
      pixelAt (setPixel f px py).1 y x = pixelAt f y x)

/-- R176, R177 (with the operand reads of the spec's decision D13, log 11): DRW xors the wrapped sprite mask into the
framebuffer, and VF says whether a pixel under the mask was ON; n = 0 is a form of it. -/
def Obligations.DrawXorsWrappedMask : Prop :=
  ∀ (x y : Reg) (n : Nibble) (s : State), (n.toNat = 0 ∨ s.i.toNat + n.toNat ≤ 4096) →
    ∃ t, exec (.drw x y n) s = .next t ∧
      (∀ py px, pixelAt t.fb py px =
        (pixelAt s.fb py px ^^ spriteMask s (reg s x).toNat (reg s y).toNat n.toNat py px)) ∧
      reg t vf = (if ∃ py px, pixelAt s.fb py px = true ∧
        spriteMask s (reg s x).toNat (reg s y).toNat n.toNat py px = true then 1 else 0) ∧
      (∀ j, j ≠ vf → reg t j = reg s j) ∧ ChangesOnly [.v, .fb] s t

/-- R177: the same sprite drawn twice at the same coordinates restores the framebuffer; from a cleared one the first
draw leaves VF 0 and the second sets it exactly when the sprite has a 1 bit. The coordinates are the same when neither
of them is VF (R178). -/
def Obligations.DrawTwiceRestores : Prop :=
  ∀ (x y : Reg) (n : Nibble) (s : State), x ≠ vf → y ≠ vf → (n.toNat = 0 ∨ s.i.toNat + n.toNat ≤ 4096) →
    ∃ t u, exec (.drw x y n) s = .next t ∧ exec (.drw x y n) t = .next u ∧
      (∀ py px, pixelAt u.fb py px = pixelAt s.fb py px) ∧
      ((∀ py px, pixelAt s.fb py px = false) → reg t vf = 0 ∧
        reg u vf = (if ∃ row, row < n.toNat ∧ byteAt s (s.i.toNat + row) ≠ 0 then 1 else 0))

/-- R176, R67 (the spec's decision D9, log 10): a sprite that runs past 4095 draws nothing, not even its rows in
range, and leaves VF; the reported address is the lowest bad one. -/
def Obligations.DrawPastMemoryRaises : Prop :=
  ∀ (x y : Reg) (n : Nibble) (s : State), 0 < n.toNat → 4096 < s.i.toNat + n.toNat →
    ∃ t info, exec (.drw x y n) s = .next t ∧ info.toNat = max s.i.toNat 4096 ∧
      RaisedFrom .memoryAccessOutOfRange info s t

/-! ## Keypad -/

/-- R191, R192, R190 (the raise above 15 is the spec's decision D14, log 12; the state it leaves D6 and D9, log 1 and
log 10): the two skips test the present state of the key Vx names. -/
def Obligations.KeySkips : Prop :=
  ∀ (x : Reg) (s : State),
    (∀ k : Key, (reg s x).toNat = k.val →
      (∃ t, exec (.skp x) s = .next t ∧ t.pc = (if s.keys[k] = true then s.pc + 2 else s.pc) ∧ ChangesOnly [.pc] s t) ∧
      (∃ t, exec (.sknp x) s = .next t ∧ t.pc = (if s.keys[k] = true then s.pc else s.pc + 2) ∧
        ChangesOnly [.pc] s t)) ∧
    (15 < (reg s x).toNat → ∃ info : Word, info.toNat = (reg s x).toNat ∧
      (∃ t, exec (.skp x) s = .next t ∧ RaisedFrom .keyIndexOutOfRange info s t) ∧
      (∃ t, exec (.sknp x) s = .next t ∧ RaisedFrom .keyIndexOutOfRange info s t))

/-- R193 (steps hold: the spec's decision D12, log 14; ticks during the wait: D18, log 15; RUN after reset: D6, log
1): LD Vx, K suspends the core and writes nothing else; steps hold, a tick still counts the timers down, snapshot
still works, only reset and a key press end the wait: the release of a key and a key already down do not, and the
first key that goes down puts its number in Vx and leaves PC after the instruction. -/
def Obligations.KeyWait : Prop :=
  ∀ (x : Reg) (s : State), ∃ t, exec (.ldVxK x) s = .next t ∧ t.run = .waitingForKey x ∧ ChangesOnly [.run] s t ∧
    step t = .next t ∧ snapshot t = s.fb ∧ (resetFrom t).run = .running ∧
    ((tick t).run = .waitingForKey x ∧ (tick t).dt.toNat = s.dt.toNat - 1 ∧ (tick t).st.toNat = s.st.toNat - 1) ∧
    (∀ k : Key, (keySet k false t).run = .waitingForKey x ∧
      (s.keys[k] = true → (keySet k true t).run = .waitingForKey x) ∧
      (s.keys[k] = false → (keySet k true t).run = .running ∧ (reg (keySet k true t) x).toNat = k.val ∧
        (keySet k true t).pc = s.pc ∧ ∀ j, j ≠ x → reg (keySet k true t) j = reg s j))

/-- R240, R241: key_set records the key; a transition to pressed while the core waits ends the wait with the key's
number in the waiting register, and nothing else does. -/
def Obligations.KeySetRecordsAndWakes : Prop :=
  ∀ (k : Key) (b : Bool) (s : State),
    (∀ j : Key, (keySet k b s).keys[j] = if j = k then b else s.keys[j]) ∧
    (∀ r, b = true → s.keys[k] = false → s.run = .waitingForKey r →
      (keySet k b s).run = .running ∧ (reg (keySet k b s) r).toNat = k.val ∧
      (∀ j, j ≠ r → reg (keySet k b s) j = reg s j) ∧ ChangesOnly [.keys, .run, .v] s (keySet k b s)) ∧
    (¬(b = true ∧ s.keys[k] = false ∧ ∃ r, s.run = .waitingForKey r) → ChangesOnly [.keys] s (keySet k b s))

/-! ## Timers and index -/

/-- R201, R202, R203: the three timer moves. -/
def Obligations.TimerMoves : Prop :=
  ∀ (x : Reg) (s : State),
    (∃ t, exec (.ldVxDt x) s = .next t ∧ reg t x = s.dt ∧ (∀ j, j ≠ x → reg t j = reg s j) ∧
      ChangesOnly [.v] s t) ∧
    (∃ t, exec (.ldDtVx x) s = .next t ∧ t.dt = reg s x ∧ ChangesOnly [.dt] s t) ∧
    (∃ t, exec (.ldStVx x) s = .next t ∧ t.st = reg s x ∧ ChangesOnly [.st] s t)

/-- R204 (the spec's decision D5, log 9): ADD I, Vx wraps at 16 bits only, sets no flag and never raises. -/
def Obligations.IndexAdd : Prop :=
  ∀ (x : Reg) (s : State), ∃ t, exec (.addI x) s = .next t ∧
    t.i.toNat = (s.i.toNat + (reg s x).toNat) % 65536 ∧ ChangesOnly [.i] s t

/-- R205: LD F, Vx with the whole byte, unmasked; for a digit the five bytes there are the font's glyph as long as
they read as they did at reset (R68), whatever else memory holds. -/
def Obligations.FontPointer : Prop :=
  ∀ (x : Reg) (s : State), s.cfg.wf = true →
    ∃ t, exec (.ldF x) s = .next t ∧ t.i.toNat = s.cfg.fontBase + 5 * (reg s x).toNat ∧ ChangesOnly [.i] s t ∧
      ((reg s x).toNat ≤ 15 → (∀ row, row < 5 → byteAt s (t.i.toNat + row) = byteAt (resetFrom s) (t.i.toNat + row)) →
        ∀ row, row < 5 → some (byteAt t (t.i.toNat + row)) = s.cfg.font[5 * (reg s x).toNat + row]?)

/-- R206 (the state a raise leaves: the spec's decisions D6 and D9, log 1 and log 10): LD B, Vx stores the digits of
Vx, from which Vx comes back; past 4093 it raises and stores nothing. -/
def Obligations.BcdStoresDigits : Prop :=
  ∀ (x : Reg) (s : State), memWf s.cfg s.mem = true →
    (s.i.toNat ≤ 4093 →
      ∃ t, exec (.ldB x) s = .next t ∧
        (byteAt t s.i.toNat).toNat = (reg s x).toNat / 100 ∧
        (byteAt t (s.i.toNat + 1)).toNat = (reg s x).toNat / 10 % 10 ∧
        (byteAt t (s.i.toNat + 2)).toNat = (reg s x).toNat % 10 ∧
        100 * (byteAt t s.i.toNat).toNat + 10 * (byteAt t (s.i.toNat + 1)).toNat + (byteAt t (s.i.toNat + 2)).toNat =
          (reg s x).toNat ∧
        (∀ a, a < s.i.toNat ∨ s.i.toNat + 3 ≤ a → byteAt t a = byteAt s a) ∧ ChangesOnly [.mem] s t) ∧
    (4093 < s.i.toNat → ∃ t info, exec (.ldB x) s = .next t ∧ info.toNat = max s.i.toNat 4096 ∧
      RaisedFrom .memoryAccessOutOfRange info s t)

/-- R207, R209 (I unchanged: the spec's decision D15, log 13; the raise: D9, log 10): LD [I], Vx stores V0 to Vx. -/
def Obligations.BlockStore : Prop :=
  ∀ (x : Reg) (s : State), memWf s.cfg s.mem = true →
    (s.i.toNat + x.val ≤ 4095 →
      ∃ t, exec (.ldMemVx x) s = .next t ∧ (∀ j : Reg, j ≤ x → byteAt t (s.i.toNat + j.val) = reg s j) ∧
        (∀ a, a < s.i.toNat ∨ s.i.toNat + x.val < a → byteAt t a = byteAt s a) ∧ ChangesOnly [.mem] s t) ∧
    (4095 < s.i.toNat + x.val → ∃ t info, exec (.ldMemVx x) s = .next t ∧ info.toNat = max s.i.toNat 4096 ∧
      RaisedFrom .memoryAccessOutOfRange info s t)

/-- R208, R209 (I unchanged: the spec's decision D15, log 13; the raise: D9, log 10): LD Vx, [I] loads V0 to Vx. -/
def Obligations.BlockLoad : Prop :=
  ∀ (x : Reg) (s : State),
    (s.i.toNat + x.val ≤ 4095 →
      ∃ t, exec (.ldVxMem x) s = .next t ∧ (∀ j : Reg, j ≤ x → reg t j = byteAt s (s.i.toNat + j.val)) ∧
        (∀ j : Reg, x < j → reg t j = reg s j) ∧ ChangesOnly [.v] s t) ∧
    (4095 < s.i.toNat + x.val → ∃ t info, exec (.ldVxMem x) s = .next t ∧ info.toNat = max s.i.toNat 4096 ∧
      RaisedFrom .memoryAccessOutOfRange info s t)

/-- R236 (in every RUN state: the spec's decision D18, log 15): after n ticks both timers have gone down by n, floored
at 0, and nothing else has changed. -/
def Obligations.TicksCountDown : Prop :=
  ∀ (n : Nat) (c : Session), c.phase ≠ .off →
    ∃ d, operateAll (List.replicate n .tick) c = .next d ∧ d.phase = c.phase ∧
      d.core.dt.toNat = c.core.dt.toNat - n ∧ d.core.st.toNat = c.core.st.toNat - n ∧
      ChangesOnly [.dt, .st] c.core d.core

/-! ## Memory and reset -/

/-- R65, R66: an access above 4095 raises with its address; a read gives the cell, and a write changes exactly that
cell and nothing else. -/
def Obligations.AccessesAreChecked : Prop :=
  ∀ (a : Nat) (b : Byte) (s : State), memWf s.cfg s.mem = true →
    (4095 < a → memRead s a = .error (BitVec.ofNat 16 a) ∧ memWrite a b s = .error (BitVec.ofNat 16 a)) ∧
    (a ≤ 4095 → memRead s a = .ok (byteAt s a) ∧
      ∃ t, memWrite a b s = .ok t ∧ memRead t a = .ok b ∧ (∀ k, k ≠ a → byteAt t k = byteAt s k) ∧
        ChangesOnly [.mem] s t)

/-- The canonical form is canonical: two memories of one configuration that read the same everywhere are the same data
(log 8). -/
def Obligations.EqualReadsEqualMemory : Prop :=
  ∀ (c : Config) (m m' : List Host.Cell), memWf c m = true → memWf c m' = true →
    (∀ a, lookupCell (background c a) a m = lookupCell (background c a) a m') → m = m'

/-- R75: what LD [I], Vx and LD B, Vx store over the two bytes at PC is what the very next fetch reads, whichever of
the stored bytes fall on them; a byte they leave alone is fetched as it was. -/
def Obligations.StoreIsFetched : Prop :=
  ∀ (x : Reg) (s : State), memWf s.cfg s.mem = true → s.pc.toNat ≤ 4094 →
    (s.i.toNat + x.val ≤ 4095 →
      ∃ t hi lo, exec (.ldMemVx x) s = .next t ∧ t.pc = s.pc ∧ fetchWord t = .ok (wordOfBytes hi lo) ∧
        StoreSeenByFetch s s.i.toNat (((List.finRange 16).map (reg s)).take (x.val + 1)) hi lo) ∧
    (s.i.toNat ≤ 4093 →
      ∃ t hi lo, exec (.ldB x) s = .next t ∧ t.pc = s.pc ∧ fetchWord t = .ok (wordOfBytes hi lo) ∧
        StoreSeenByFetch s s.i.toNat
          ([(reg s x).toNat / 100, (reg s x).toNat / 10 % 10, (reg s x).toNat % 10].map (BitVec.ofNat 8)) hi lo)

/-- R77 (what RomTooLarge leaves: the spec's decision D17, log 17): after a reset from any state an image goes to
0x200 and up, byte for byte, and its first two bytes are the first word fetched; one longer than 3584 bytes is refused
with RomTooLarge. -/
def Obligations.RomImageIsLoaded : Prop :=
  ∀ (s : State) (image : List Byte),
    (image.length ≤ 3584 →
      (∀ k, k < image.length → some (byteAt (loadRom image (resetFrom s)) (0x200 + k)) = image[k]?) ∧
      (∀ a, a < 0x200 ∨ 0x200 + image.length ≤ a → byteAt (loadRom image (resetFrom s)) a = byteAt (resetFrom s) a) ∧
      ChangesOnly [.mem] (resetFrom s) (loadRom image (resetFrom s)) ∧
      (∀ hi lo rest, image = hi :: lo :: rest →
        fetchWord (loadRom image (resetFrom s)) = .ok (wordOfBytes hi lo))) ∧
    (3584 < image.length → ∃ info, info.toNat = min image.length 0xFFFF ∧
      RaisedFrom .romTooLarge info (resetFrom s) (loadRom image (resetFrom s)))

/-- R40, R260 (framebuffer, keys and stack entries: the spec's decision D7, log 7; RUN: D6, log 1): what reset leaves,
from any state. -/
def Obligations.ResetLeaves : Prop :=
  ∀ s : State,
    (∀ x, reg (resetFrom s) x = 0) ∧ (resetFrom s).i = 0 ∧ (resetFrom s).pc = 0x200 ∧ (resetFrom s).sp = 0 ∧
    (resetFrom s).dt = 0 ∧ (resetFrom s).st = 0 ∧ (resetFrom s).run = .running ∧
    (∀ y x, pixelAt (resetFrom s).fb y x = false) ∧ (∀ k : Key, (resetFrom s).keys[k] = false) ∧
    (resetFrom s).stack = List.replicate s.cfg.stackDepth 0 ∧
    (s.cfg.wf = true →
      (∀ k, k < 80 → some (byteAt (resetFrom s) (s.cfg.fontBase + k)) = s.cfg.font[k]?) ∧
      (∀ a, a < s.cfg.fontBase ∨ s.cfg.fontBase + 80 ≤ a → byteAt (resetFrom s) a = 0))

/-! ## All instructions -/

/-- R42, R228: an instruction changes only the parts of the state the access summary says it writes; or it raises the
one error listed for it, which changes RUN and nothing else. -/
def Obligations.ChangesOnlyListedParts : Prop :=
  ∀ (i : Instr) (s t : State), exec i s = .next t →
    ChangesOnly (writes i) s t ∨ ∃ e info, executeError i = some e ∧ RaisedFrom e info s t

/-- R20, R21, R23, R42: a register that is neither the destination nor, for the six flag-setting instructions, VF, is
unchanged. -/
def Obligations.OtherRegistersUnchanged : Prop :=
  ∀ (i : Instr) (s t : State) (j : Reg), exec i s = .next t → writesReg i j = false → reg t j = reg s j

/-- R23: as a flag VF takes only the values 0 and 1, after each of the six instructions that set it. -/
def Obligations.FlagIsZeroOrOne : Prop :=
  ∀ (i : Instr) (s : State), setsFlag i = true → Unhindered i s →
    ∃ t, exec i s = .next t ∧ (reg t vf = 0 ∨ reg t vf = 1)

/-- Every instruction runs to its own effect, without an error and changing only what R42 lists for it, in every state
that meets its condition. -/
def Obligations.UnhinderedRunsToEffect : Prop :=
  ∀ (i : Instr) (s : State), Unhindered i s → s.run = .running →
    ∃ t, exec i s = .next t ∧ (∀ e info, t.run ≠ .faulted e info) ∧ ChangesOnly (writes i) s t

/-- R220, R221, R228 (the spec's decisions D9, log 10, and for a key number above 15 D14, log 12): where the condition
does not hold, the instruction raises the one error listed for it, with a legal info, and does nothing else. -/
def Obligations.HinderedRaises : Prop :=
  ∀ (i : Instr) (s : State), CoreInv s → ¬Unhindered i s →
    ∃ e info t, executeError i = some e ∧ errorInfoLegal e info = true ∧ exec i s = .next t ∧ RaisedFrom e info s t

/-- R30, R203: no instruction reads ST: but for the one that writes it, changing ST before an instruction changes ST
after it and nothing else. -/
def Obligations.SoundTimerIsNeverRead : Prop :=
  ∀ (i : Instr) (s : State) (b : Byte), (∀ x, i ≠ .ldStVx x) →
    (∀ t, exec i s = .next t → exec i (setSt b s) = .next (setSt b t)) ∧
    (∀ r, exec i s = .fault r → exec i (setSt b s) = .fault r)

/-! ## Invariants -/

/-- The invariant holds at reset. -/
def Obligations.ResetMeetsInvariant : Prop := CoreInv State.reset

/-- Every step keeps the invariant: the memory its canonical form, the stack its size and its live entries, SP its
range, PC at most 0x10FE (R27, R28), RUN a legal one (R220). -/
def Obligations.StepKeepsInvariant : Prop := ∀ s t : State, CoreInv s → step s = .next t → CoreInv t

/-- From a state that meets the invariant a step always answers a next state: every error of the spec is a state of
RUN (the spec's decision D6, log 1). -/
def Obligations.StepAnswersNext : Prop := ∀ s : State, CoreInv s → ∃ t, step s = .next t

/-- R262: every sequence of the environment's operations that each have a meaning where they stand runs, and keeps the
invariant; any other is refused. Which sequences those are is the model's reading of R262 and U8 (log 17): a load_rom
after a tick, a key event or a snapshot has a meaning, one after a step or after another load_rom has none. -/
def Obligations.OperationsKeepInvariant : Prop :=
  ∀ (ops : List Operation) (c : Session), CoreInv c.core →
    (bootAllows c.phase ops = true → ∃ d, operateAll ops c = .next d ∧ CoreInv d.core) ∧
    (bootAllows c.phase ops = false → operateAll ops c = .refused .outsideBootOrder)

/-- R262, R77 (a second reset among the later operations: log 17): along the boot order the spec asks of the
environment, from any session, the image stands at 0x200 and up when the first step comes, the core is Running with PC
there, no later operation is refused, and RUN never becomes Faulted(RomTooLarge). -/
def Obligations.BootOrderLoadsRom : Prop :=
  ∀ (image : List Byte) (ops : List Operation) (c : Session), c.core.cfg.wf = true →
    bootOrder c.phase (.reset :: .loadRom image :: ops) = true →
    ∃ b d, operateAll [.reset, .loadRom image] c = .next b ∧
      (∀ k, k < image.length → some (byteAt b.core (0x200 + k)) = image[k]?) ∧
      b.core.pc = 0x200 ∧ b.core.run = .running ∧ b.phase = .loaded ∧
      operateAll ops b = .next d ∧ ∀ info, d.core.run ≠ .faulted .romTooLarge info

/-- R262, U8 (the form of the refusal, and the refusal before the first reset, are the model's choice, log 17): once a
step or a load_rom has come since the last reset, a load_rom is refused, whatever else has come between; and before
the first reset nothing but reset is answered. -/
def Obligations.LateLoadRomIsRefused : Prop :=
  (∀ (op : Operation) (ops : List Operation) (image : List Byte) (c d : Session),
    (op = .step ∨ ∃ other, op = .loadRom other) → .reset ∉ ops → operateAll (op :: ops) c = .next d →
    operate (.loadRom image) d = .refused .outsideBootOrder) ∧
  (∀ (op : Operation) (c : Session), c.phase = .off → op ≠ .reset → operate op c = .refused .outsideBootOrder)
end

