-- ==== Sys2Proof/Laws/Display.lean ====
section
/-! SUPPORT. The framebuffer: one pixel written, one toggled, and what a list of drawn pixels does to a frame. -/

namespace Sys2Proof.Machine

@[simp] theorem pixelAt_putPixel (f : Frame) (y y' : Fin 32) (x x' : Fin 64) (on : Bool) :
    pixelAt (putPixel f y x on) y' x' = if y' = y ∧ x' = x then on else pixelAt f y' x' := by
  simp only [pixelAt, putPixel, Fin.getElem_fin, Vector.getElem_set]
  by_cases hy : y.val = y'.val
  · have hy' : y' = y := Fin.ext hy.symm
    subst hy'
    simp only [if_true, Vector.getElem_set, true_and]
    by_cases hx : x.val = x'.val
    · have : x' = x := Fin.ext hx.symm
      simp [this]
    · have : x' ≠ x := fun e => hx (by rw [e])
      simp [hx, this]
  · have : y' ≠ y := fun e => hy (by rw [e])
    simp [hy, this]

@[simp] theorem pixelAt_clearedFrame (y : Fin 32) (x : Fin 64) : pixelAt clearedFrame y x = false := by
  simp [pixelAt, clearedFrame]

/-- R171: one toggle. -/
theorem pixelAt_setPixel (f : Frame) (px py : Int) (y : Fin 32) (x : Fin 64) :
    pixelAt (setPixel f px py).1 y x = (pixelAt f y x ^^ decide (y = wrapY py ∧ x = wrapX px)) := by
  simp only [setPixel, pixelAt_putPixel]
  by_cases h : y = wrapY py ∧ x = wrapX px
  · obtain ⟨rfl, rfl⟩ := h; simp
  · simp [h]

theorem wrapX_natCast (n : Nat) : (wrapX (n : Int)).val = n % 64 := by
  simp only [wrapX]; omega

theorem wrapY_natCast (n : Nat) : (wrapY (n : Int)).val = n % 32 := by
  simp only [wrapY]; omega

/-! ## A sprite row -/

/-- The pixels a row of a sprite covers, by its columns. -/
def rowMask (ox oy : Nat) (b : Byte) (cols : List Nat) (y : Fin 32) (x : Fin 64) : Bool :=
  decide (oy % 32 = y.val) && cols.any fun c => decide ((ox + c) % 64 = x.val) && b.getLsbD (7 - c)

/-- Some 1 bit of the row lies on a pixel that is ON in `f`. -/
def rowHits (f : Frame) (ox oy : Nat) (b : Byte) (cols : List Nat) : Bool :=
  cols.any fun c => b.getLsbD (7 - c) && pixelAt f (wrapY (oy : Int)) (wrapX ((ox + c : Nat) : Int))

theorem pixelAt_drawBit (ox oy c : Nat) (on : Bool) (acc : Frame × Bool) (y : Fin 32) (x : Fin 64) :
    pixelAt (drawBit ((ox + c : Nat) : Int) (oy : Int) on acc).1 y x =
      (pixelAt acc.1 y x ^^ (decide (oy % 32 = y.val) && (decide ((ox + c) % 64 = x.val) && on))) := by
  have hy : (y = wrapY (oy : Int)) ↔ oy % 32 = y.val := by
    rw [Fin.ext_iff, wrapY_natCast]; exact eq_comm
  have hx : (x = wrapX ((ox + c : Nat) : Int)) ↔ (ox + c) % 64 = x.val := by
    rw [Fin.ext_iff, wrapX_natCast]; exact eq_comm
  cases on with
  | false => simp [drawBit]
  | true =>
    simp only [drawBit, if_true, pixelAt_setPixel, hy, hx, Bool.and_true]
    by_cases h1 : oy % 32 = y.val <;> by_cases h2 : (ox + c) % 64 = x.val <;> simp [h1, h2]

theorem drawBit_hit (ox oy c : Nat) (on : Bool) (acc : Frame × Bool) :
    (drawBit ((ox + c : Nat) : Int) (oy : Int) on acc).2 =
      (acc.2 || (on && pixelAt acc.1 (wrapY (oy : Int)) (wrapX ((ox + c : Nat) : Int)))) := by
  cases on <;> simp [drawBit, setPixel]

/-- A row drawn with columns that are distinct modulo 64 xors its mask in, and hits where the mask meets a pixel that
was ON before. -/
theorem drawCols (ox oy : Nat) (b : Byte) (cols : List Nat) (acc : Frame × Bool)
    (h : cols.Pairwise fun c d => (ox + c) % 64 ≠ (ox + d) % 64) :
    (∀ y x, pixelAt (cols.foldl (fun a c => drawBit ((ox + c : Nat) : Int) (oy : Int) (b.getLsbD (7 - c)) a) acc).1 y x =
      (pixelAt acc.1 y x ^^ rowMask ox oy b cols y x)) ∧
    (cols.foldl (fun a c => drawBit ((ox + c : Nat) : Int) (oy : Int) (b.getLsbD (7 - c)) a) acc).2 =
      (acc.2 || rowHits acc.1 ox oy b cols) := by
  induction cols generalizing acc with
  | nil => simp [rowMask, rowHits]
  | cons c t ih =>
    obtain ⟨hc, ht⟩ := List.pairwise_cons.1 h
    obtain ⟨ih1, ih2⟩ := ih (drawBit ((ox + c : Nat) : Int) (oy : Int) (b.getLsbD (7 - c)) acc) ht
    constructor
    · intro y x
      rw [List.foldl_cons, ih1 y x, pixelAt_drawBit]
      simp only [rowMask, List.any_cons]
      by_cases hx : (ox + c) % 64 = x.val
      · have : (t.any fun d => decide ((ox + d) % 64 = x.val) && b.getLsbD (7 - d)) = false := by
          rw [List.any_eq_false]
          intro d hd
          have hne : (ox + d) % 64 ≠ x.val := fun e => hc d hd (hx.trans e.symm)
          simp [hne]
        rw [this]
        simp
      · simp [hx]
    · rw [List.foldl_cons, ih2, drawBit_hit]
      simp only [rowHits, List.any_cons]
      have hsame : (t.any fun d => b.getLsbD (7 - d) &&
            pixelAt (drawBit ((ox + c : Nat) : Int) (oy : Int) (b.getLsbD (7 - c)) acc).1 (wrapY (oy : Int))
              (wrapX ((ox + d : Nat) : Int))) =
          t.any fun d => b.getLsbD (7 - d) && pixelAt acc.1 (wrapY (oy : Int)) (wrapX ((ox + d : Nat) : Int)) := by
        rw [Bool.eq_iff_iff, List.any_eq_true, List.any_eq_true]
        refine exists_congr fun d => and_congr_right fun hd => ?_
        have hne : (ox + c) % 64 ≠ (ox + d) % 64 := hc d hd
        rw [pixelAt_drawBit, wrapX_natCast]
        simp [hne]
      rw [hsame, Bool.or_assoc]

theorem drawRow_spec (ox oy : Nat) (b : Byte) (acc : Frame × Bool) :
    (∀ y x, pixelAt (drawRow ox oy b acc).1 y x = (pixelAt acc.1 y x ^^ rowMask ox oy b (List.range 8) y x)) ∧
    (drawRow ox oy b acc).2 = (acc.2 || rowHits acc.1 ox oy b (List.range 8)) := by
  refine drawCols ox oy b (List.range 8) acc ?_
  refine List.Pairwise.imp_of_mem ?_ (List.nodup_range (n := 8))
  intro c d hc hd hne
  rw [List.mem_range] at hc hd
  omega

/-! ## A sprite -/

/-- The pixels under the 1 bits of the rows, the first row at `oy`. -/
def rowsMask (ox oy : Nat) (rows : List Byte) (y : Fin 32) (x : Fin 64) : Bool :=
  (List.range rows.length).any fun r => rowMask ox (oy + r) (rows.getD r 0) (List.range 8) y x

/-- Some 1 bit of the rows lies on a pixel that is ON in `f`. -/
def rowsHit (f : Frame) (ox oy : Nat) (rows : List Byte) : Bool :=
  (List.range rows.length).any fun r => rowHits f ox (oy + r) (rows.getD r 0) (List.range 8)

theorem rowsMask_cons (ox oy : Nat) (b : Byte) (t : List Byte) (y : Fin 32) (x : Fin 64) :
    rowsMask ox oy (b :: t) y x = (rowMask ox oy b (List.range 8) y x || rowsMask ox (oy + 1) t y x) := by
  simp only [rowsMask, List.length_cons, List.range_succ_eq_map (n := t.length), List.any_cons, List.any_map]
  congr 1
  refine congrArg (fun g => (List.range t.length).any g) (funext fun r => ?_)
  simp only [Function.comp, List.getD_cons_succ, Nat.succ_eq_add_one]
  rw [show oy + (r + 1) = oy + 1 + r by omega]

theorem rowsHit_cons (f : Frame) (ox oy : Nat) (b : Byte) (t : List Byte) :
    rowsHit f ox oy (b :: t) = (rowHits f ox oy b (List.range 8) || rowsHit f ox (oy + 1) t) := by
  simp only [rowsHit, List.length_cons, List.range_succ_eq_map (n := t.length), List.any_cons, List.any_map]
  congr 1
  refine congrArg (fun g => (List.range t.length).any g) (funext fun r => ?_)
  simp only [Function.comp, List.getD_cons_succ, Nat.succ_eq_add_one]
  rw [show oy + (r + 1) = oy + 1 + r by omega]

theorem rowMask_of_row {ox oy : Nat} {b : Byte} {cols : List Nat} {y : Fin 32} {x : Fin 64}
    (h : rowMask ox oy b cols y x = true) : oy % 32 = y.val := by
  simp only [rowMask, Bool.and_eq_true, decide_eq_true_eq] at h; exact h.1

/-- At most 32 rows: the sprite xors its mask in, and hits where the mask meets a pixel that was ON before (R177). -/
theorem drawSprite_spec (ox oy : Nat) (rows : List Byte) (acc : Frame × Bool) (h : rows.length ≤ 32) :
    (∀ y x, pixelAt (drawSprite ox oy rows acc).1 y x = (pixelAt acc.1 y x ^^ rowsMask ox oy rows y x)) ∧
    (drawSprite ox oy rows acc).2 = (acc.2 || rowsHit acc.1 ox oy rows) := by
  induction rows generalizing oy acc with
  | nil => simp [drawSprite, rowsMask, rowsHit]
  | cons b t ih =>
    simp only [List.length_cons] at h
    obtain ⟨r1, r2⟩ := drawRow_spec ox oy b acc
    obtain ⟨ih1, ih2⟩ := ih (oy + 1) (drawRow ox oy b acc) (by omega)
    have hdisjoint (r : Nat) (hr : r < t.length) : oy % 32 ≠ (oy + 1 + r) % 32 := by omega
    constructor
    · intro y x
      rw [drawSprite, ih1, r1, rowsMask_cons]
      cases hm : rowMask ox oy b (List.range 8) y x with
      | false => simp
      | true =>
        have hz : rowsMask ox (oy + 1) t y x = false := by
          rw [rowsMask, List.any_eq_false]
          intro r hr hm'
          exact hdisjoint r (List.mem_range.1 hr) ((rowMask_of_row hm).trans (rowMask_of_row hm').symm)
        simp [hz]
    · rw [drawSprite, ih2, r2, rowsHit_cons]
      have hsame : rowsHit (drawRow ox oy b acc).1 ox (oy + 1) t = rowsHit acc.1 ox (oy + 1) t := by
        rw [rowsHit, rowsHit, Bool.eq_iff_iff, List.any_eq_true, List.any_eq_true]
        refine exists_congr fun r => and_congr_right fun hr => ?_
        have hne := hdisjoint r (List.mem_range.1 hr)
        simp only [rowHits, r1]
        have hz (c : Nat) : rowMask ox oy b (List.range 8) (wrapY ((oy + 1 + r : Nat) : Int))
            (wrapX ((ox + c : Nat) : Int)) = false := by
          rw [Bool.eq_false_iff]
          intro hm
          exact hne ((rowMask_of_row hm).trans (wrapY_natCast _))
        simp only [hz, Bool.xor_false]
      rw [hsame, Bool.or_assoc]

end Sys2Proof.Machine
end

