-- ==== Sys2Proof/Laws/State.lean ====
section
/-! SUPPORT. One lemma per field per update of the state, true by rfl, so that no later proof unfolds a record update. -/

namespace Sys2Proof.Machine

@[simp] theorem setV_v (v : Vector Byte 16) (s : State) : (setV v s).v = v := rfl
@[simp] theorem setV_i (v : Vector Byte 16) (s : State) : (setV v s).i = s.i := rfl
@[simp] theorem setV_pc (v : Vector Byte 16) (s : State) : (setV v s).pc = s.pc := rfl
@[simp] theorem setV_stack (v : Vector Byte 16) (s : State) : (setV v s).stack = s.stack := rfl
@[simp] theorem setV_sp (v : Vector Byte 16) (s : State) : (setV v s).sp = s.sp := rfl
@[simp] theorem setV_dt (v : Vector Byte 16) (s : State) : (setV v s).dt = s.dt := rfl
@[simp] theorem setV_st (v : Vector Byte 16) (s : State) : (setV v s).st = s.st := rfl
@[simp] theorem setV_mem (v : Vector Byte 16) (s : State) : (setV v s).mem = s.mem := rfl
@[simp] theorem setV_fb (v : Vector Byte 16) (s : State) : (setV v s).fb = s.fb := rfl
@[simp] theorem setV_keys (v : Vector Byte 16) (s : State) : (setV v s).keys = s.keys := rfl
@[simp] theorem setV_run (v : Vector Byte 16) (s : State) : (setV v s).run = s.run := rfl
@[simp] theorem setV_draws (v : Vector Byte 16) (s : State) : (setV v s).draws = s.draws := rfl
@[simp] theorem setV_cfg (v : Vector Byte 16) (s : State) : (setV v s).cfg = s.cfg := rfl
@[simp] theorem byteAt_setV (v : Vector Byte 16) (s : State) (k : Nat) : byteAt (setV v s) k = byteAt s k := rfl

@[simp] theorem setI_v (a : Word) (s : State) : (setI a s).v = s.v := rfl
@[simp] theorem setI_i (a : Word) (s : State) : (setI a s).i = a := rfl
@[simp] theorem setI_pc (a : Word) (s : State) : (setI a s).pc = s.pc := rfl
@[simp] theorem setI_stack (a : Word) (s : State) : (setI a s).stack = s.stack := rfl
@[simp] theorem setI_sp (a : Word) (s : State) : (setI a s).sp = s.sp := rfl
@[simp] theorem setI_dt (a : Word) (s : State) : (setI a s).dt = s.dt := rfl
@[simp] theorem setI_st (a : Word) (s : State) : (setI a s).st = s.st := rfl
@[simp] theorem setI_mem (a : Word) (s : State) : (setI a s).mem = s.mem := rfl
@[simp] theorem setI_fb (a : Word) (s : State) : (setI a s).fb = s.fb := rfl
@[simp] theorem setI_keys (a : Word) (s : State) : (setI a s).keys = s.keys := rfl
@[simp] theorem setI_run (a : Word) (s : State) : (setI a s).run = s.run := rfl
@[simp] theorem setI_draws (a : Word) (s : State) : (setI a s).draws = s.draws := rfl
@[simp] theorem setI_cfg (a : Word) (s : State) : (setI a s).cfg = s.cfg := rfl
@[simp] theorem reg_setI (a : Word) (s : State) (x : Reg) : reg (setI a s) x = reg s x := rfl
@[simp] theorem byteAt_setI (a : Word) (s : State) (k : Nat) : byteAt (setI a s) k = byteAt s k := rfl

@[simp] theorem setPc_v (a : Word) (s : State) : (setPc a s).v = s.v := rfl
@[simp] theorem setPc_i (a : Word) (s : State) : (setPc a s).i = s.i := rfl
@[simp] theorem setPc_pc (a : Word) (s : State) : (setPc a s).pc = a := rfl
@[simp] theorem setPc_stack (a : Word) (s : State) : (setPc a s).stack = s.stack := rfl
@[simp] theorem setPc_sp (a : Word) (s : State) : (setPc a s).sp = s.sp := rfl
@[simp] theorem setPc_dt (a : Word) (s : State) : (setPc a s).dt = s.dt := rfl
@[simp] theorem setPc_st (a : Word) (s : State) : (setPc a s).st = s.st := rfl
@[simp] theorem setPc_mem (a : Word) (s : State) : (setPc a s).mem = s.mem := rfl
@[simp] theorem setPc_fb (a : Word) (s : State) : (setPc a s).fb = s.fb := rfl
@[simp] theorem setPc_keys (a : Word) (s : State) : (setPc a s).keys = s.keys := rfl
@[simp] theorem setPc_run (a : Word) (s : State) : (setPc a s).run = s.run := rfl
@[simp] theorem setPc_draws (a : Word) (s : State) : (setPc a s).draws = s.draws := rfl
@[simp] theorem setPc_cfg (a : Word) (s : State) : (setPc a s).cfg = s.cfg := rfl
@[simp] theorem reg_setPc (a : Word) (s : State) (x : Reg) : reg (setPc a s) x = reg s x := rfl
@[simp] theorem byteAt_setPc (a : Word) (s : State) (k : Nat) : byteAt (setPc a s) k = byteAt s k := rfl

@[simp] theorem setStack_v (l : List Word) (n : Nat) (s : State) : (setStack l n s).v = s.v := rfl
@[simp] theorem setStack_i (l : List Word) (n : Nat) (s : State) : (setStack l n s).i = s.i := rfl
@[simp] theorem setStack_pc (l : List Word) (n : Nat) (s : State) : (setStack l n s).pc = s.pc := rfl
@[simp] theorem setStack_stack (l : List Word) (n : Nat) (s : State) : (setStack l n s).stack = l := rfl
@[simp] theorem setStack_sp (l : List Word) (n : Nat) (s : State) : (setStack l n s).sp = n := rfl
@[simp] theorem setStack_dt (l : List Word) (n : Nat) (s : State) : (setStack l n s).dt = s.dt := rfl
@[simp] theorem setStack_st (l : List Word) (n : Nat) (s : State) : (setStack l n s).st = s.st := rfl
@[simp] theorem setStack_mem (l : List Word) (n : Nat) (s : State) : (setStack l n s).mem = s.mem := rfl
@[simp] theorem setStack_fb (l : List Word) (n : Nat) (s : State) : (setStack l n s).fb = s.fb := rfl
@[simp] theorem setStack_keys (l : List Word) (n : Nat) (s : State) : (setStack l n s).keys = s.keys := rfl
@[simp] theorem setStack_run (l : List Word) (n : Nat) (s : State) : (setStack l n s).run = s.run := rfl
@[simp] theorem setStack_draws (l : List Word) (n : Nat) (s : State) : (setStack l n s).draws = s.draws := rfl
@[simp] theorem setStack_cfg (l : List Word) (n : Nat) (s : State) : (setStack l n s).cfg = s.cfg := rfl
@[simp] theorem reg_setStack (l : List Word) (n : Nat) (s : State) (x : Reg) : reg (setStack l n s) x = reg s x := rfl
@[simp] theorem byteAt_setStack (l : List Word) (n : Nat) (s : State) (k : Nat) : byteAt (setStack l n s) k = byteAt s k := rfl

@[simp] theorem setDt_v (b : Byte) (s : State) : (setDt b s).v = s.v := rfl
@[simp] theorem setDt_i (b : Byte) (s : State) : (setDt b s).i = s.i := rfl
@[simp] theorem setDt_pc (b : Byte) (s : State) : (setDt b s).pc = s.pc := rfl
@[simp] theorem setDt_stack (b : Byte) (s : State) : (setDt b s).stack = s.stack := rfl
@[simp] theorem setDt_sp (b : Byte) (s : State) : (setDt b s).sp = s.sp := rfl
@[simp] theorem setDt_dt (b : Byte) (s : State) : (setDt b s).dt = b := rfl
@[simp] theorem setDt_st (b : Byte) (s : State) : (setDt b s).st = s.st := rfl
@[simp] theorem setDt_mem (b : Byte) (s : State) : (setDt b s).mem = s.mem := rfl
@[simp] theorem setDt_fb (b : Byte) (s : State) : (setDt b s).fb = s.fb := rfl
@[simp] theorem setDt_keys (b : Byte) (s : State) : (setDt b s).keys = s.keys := rfl
@[simp] theorem setDt_run (b : Byte) (s : State) : (setDt b s).run = s.run := rfl
@[simp] theorem setDt_draws (b : Byte) (s : State) : (setDt b s).draws = s.draws := rfl
@[simp] theorem setDt_cfg (b : Byte) (s : State) : (setDt b s).cfg = s.cfg := rfl
@[simp] theorem reg_setDt (b : Byte) (s : State) (x : Reg) : reg (setDt b s) x = reg s x := rfl
@[simp] theorem byteAt_setDt (b : Byte) (s : State) (k : Nat) : byteAt (setDt b s) k = byteAt s k := rfl

@[simp] theorem setSt_v (b : Byte) (s : State) : (setSt b s).v = s.v := rfl
@[simp] theorem setSt_i (b : Byte) (s : State) : (setSt b s).i = s.i := rfl
@[simp] theorem setSt_pc (b : Byte) (s : State) : (setSt b s).pc = s.pc := rfl
@[simp] theorem setSt_stack (b : Byte) (s : State) : (setSt b s).stack = s.stack := rfl
@[simp] theorem setSt_sp (b : Byte) (s : State) : (setSt b s).sp = s.sp := rfl
@[simp] theorem setSt_dt (b : Byte) (s : State) : (setSt b s).dt = s.dt := rfl
@[simp] theorem setSt_st (b : Byte) (s : State) : (setSt b s).st = b := rfl
@[simp] theorem setSt_mem (b : Byte) (s : State) : (setSt b s).mem = s.mem := rfl
@[simp] theorem setSt_fb (b : Byte) (s : State) : (setSt b s).fb = s.fb := rfl
@[simp] theorem setSt_keys (b : Byte) (s : State) : (setSt b s).keys = s.keys := rfl
@[simp] theorem setSt_run (b : Byte) (s : State) : (setSt b s).run = s.run := rfl
@[simp] theorem setSt_draws (b : Byte) (s : State) : (setSt b s).draws = s.draws := rfl
@[simp] theorem setSt_cfg (b : Byte) (s : State) : (setSt b s).cfg = s.cfg := rfl
@[simp] theorem reg_setSt (b : Byte) (s : State) (x : Reg) : reg (setSt b s) x = reg s x := rfl
@[simp] theorem byteAt_setSt (b : Byte) (s : State) (k : Nat) : byteAt (setSt b s) k = byteAt s k := rfl

@[simp] theorem setMem_v (m : List Host.Cell) (s : State) : (setMem m s).v = s.v := rfl
@[simp] theorem setMem_i (m : List Host.Cell) (s : State) : (setMem m s).i = s.i := rfl
@[simp] theorem setMem_pc (m : List Host.Cell) (s : State) : (setMem m s).pc = s.pc := rfl
@[simp] theorem setMem_stack (m : List Host.Cell) (s : State) : (setMem m s).stack = s.stack := rfl
@[simp] theorem setMem_sp (m : List Host.Cell) (s : State) : (setMem m s).sp = s.sp := rfl
@[simp] theorem setMem_dt (m : List Host.Cell) (s : State) : (setMem m s).dt = s.dt := rfl
@[simp] theorem setMem_st (m : List Host.Cell) (s : State) : (setMem m s).st = s.st := rfl
@[simp] theorem setMem_mem (m : List Host.Cell) (s : State) : (setMem m s).mem = m := rfl
@[simp] theorem setMem_fb (m : List Host.Cell) (s : State) : (setMem m s).fb = s.fb := rfl
@[simp] theorem setMem_keys (m : List Host.Cell) (s : State) : (setMem m s).keys = s.keys := rfl
@[simp] theorem setMem_run (m : List Host.Cell) (s : State) : (setMem m s).run = s.run := rfl
@[simp] theorem setMem_draws (m : List Host.Cell) (s : State) : (setMem m s).draws = s.draws := rfl
@[simp] theorem setMem_cfg (m : List Host.Cell) (s : State) : (setMem m s).cfg = s.cfg := rfl
@[simp] theorem reg_setMem (m : List Host.Cell) (s : State) (x : Reg) : reg (setMem m s) x = reg s x := rfl

@[simp] theorem setFb_v (f : Frame) (s : State) : (setFb f s).v = s.v := rfl
@[simp] theorem setFb_i (f : Frame) (s : State) : (setFb f s).i = s.i := rfl
@[simp] theorem setFb_pc (f : Frame) (s : State) : (setFb f s).pc = s.pc := rfl
@[simp] theorem setFb_stack (f : Frame) (s : State) : (setFb f s).stack = s.stack := rfl
@[simp] theorem setFb_sp (f : Frame) (s : State) : (setFb f s).sp = s.sp := rfl
@[simp] theorem setFb_dt (f : Frame) (s : State) : (setFb f s).dt = s.dt := rfl
@[simp] theorem setFb_st (f : Frame) (s : State) : (setFb f s).st = s.st := rfl
@[simp] theorem setFb_mem (f : Frame) (s : State) : (setFb f s).mem = s.mem := rfl
@[simp] theorem setFb_fb (f : Frame) (s : State) : (setFb f s).fb = f := rfl
@[simp] theorem setFb_keys (f : Frame) (s : State) : (setFb f s).keys = s.keys := rfl
@[simp] theorem setFb_run (f : Frame) (s : State) : (setFb f s).run = s.run := rfl
@[simp] theorem setFb_draws (f : Frame) (s : State) : (setFb f s).draws = s.draws := rfl
@[simp] theorem setFb_cfg (f : Frame) (s : State) : (setFb f s).cfg = s.cfg := rfl
@[simp] theorem reg_setFb (f : Frame) (s : State) (x : Reg) : reg (setFb f s) x = reg s x := rfl
@[simp] theorem byteAt_setFb (f : Frame) (s : State) (k : Nat) : byteAt (setFb f s) k = byteAt s k := rfl

@[simp] theorem setKeys_v (k : Vector Bool 16) (s : State) : (setKeys k s).v = s.v := rfl
@[simp] theorem setKeys_i (k : Vector Bool 16) (s : State) : (setKeys k s).i = s.i := rfl
@[simp] theorem setKeys_pc (k : Vector Bool 16) (s : State) : (setKeys k s).pc = s.pc := rfl
@[simp] theorem setKeys_stack (k : Vector Bool 16) (s : State) : (setKeys k s).stack = s.stack := rfl
@[simp] theorem setKeys_sp (k : Vector Bool 16) (s : State) : (setKeys k s).sp = s.sp := rfl
@[simp] theorem setKeys_dt (k : Vector Bool 16) (s : State) : (setKeys k s).dt = s.dt := rfl
@[simp] theorem setKeys_st (k : Vector Bool 16) (s : State) : (setKeys k s).st = s.st := rfl
@[simp] theorem setKeys_mem (k : Vector Bool 16) (s : State) : (setKeys k s).mem = s.mem := rfl
@[simp] theorem setKeys_fb (k : Vector Bool 16) (s : State) : (setKeys k s).fb = s.fb := rfl
@[simp] theorem setKeys_keys (k : Vector Bool 16) (s : State) : (setKeys k s).keys = k := rfl
@[simp] theorem setKeys_run (k : Vector Bool 16) (s : State) : (setKeys k s).run = s.run := rfl
@[simp] theorem setKeys_draws (k : Vector Bool 16) (s : State) : (setKeys k s).draws = s.draws := rfl
@[simp] theorem setKeys_cfg (k : Vector Bool 16) (s : State) : (setKeys k s).cfg = s.cfg := rfl
@[simp] theorem reg_setKeys (k : Vector Bool 16) (s : State) (x : Reg) : reg (setKeys k s) x = reg s x := rfl
@[simp] theorem byteAt_setKeys (l : Vector Bool 16) (s : State) (k : Nat) : byteAt (setKeys l s) k = byteAt s k := rfl

@[simp] theorem setRun_v (r : RunState) (s : State) : (setRun r s).v = s.v := rfl
@[simp] theorem setRun_i (r : RunState) (s : State) : (setRun r s).i = s.i := rfl
@[simp] theorem setRun_pc (r : RunState) (s : State) : (setRun r s).pc = s.pc := rfl
@[simp] theorem setRun_stack (r : RunState) (s : State) : (setRun r s).stack = s.stack := rfl
@[simp] theorem setRun_sp (r : RunState) (s : State) : (setRun r s).sp = s.sp := rfl
@[simp] theorem setRun_dt (r : RunState) (s : State) : (setRun r s).dt = s.dt := rfl
@[simp] theorem setRun_st (r : RunState) (s : State) : (setRun r s).st = s.st := rfl
@[simp] theorem setRun_mem (r : RunState) (s : State) : (setRun r s).mem = s.mem := rfl
@[simp] theorem setRun_fb (r : RunState) (s : State) : (setRun r s).fb = s.fb := rfl
@[simp] theorem setRun_keys (r : RunState) (s : State) : (setRun r s).keys = s.keys := rfl
@[simp] theorem setRun_run (r : RunState) (s : State) : (setRun r s).run = r := rfl
@[simp] theorem setRun_draws (r : RunState) (s : State) : (setRun r s).draws = s.draws := rfl
@[simp] theorem setRun_cfg (r : RunState) (s : State) : (setRun r s).cfg = s.cfg := rfl
@[simp] theorem reg_setRun (r : RunState) (s : State) (x : Reg) : reg (setRun r s) x = reg s x := rfl
@[simp] theorem byteAt_setRun (r : RunState) (s : State) (k : Nat) : byteAt (setRun r s) k = byteAt s k := rfl

@[simp] theorem setDraws_v (n : Nat) (s : State) : (setDraws n s).v = s.v := rfl
@[simp] theorem setDraws_i (n : Nat) (s : State) : (setDraws n s).i = s.i := rfl
@[simp] theorem setDraws_pc (n : Nat) (s : State) : (setDraws n s).pc = s.pc := rfl
@[simp] theorem setDraws_stack (n : Nat) (s : State) : (setDraws n s).stack = s.stack := rfl
@[simp] theorem setDraws_sp (n : Nat) (s : State) : (setDraws n s).sp = s.sp := rfl
@[simp] theorem setDraws_dt (n : Nat) (s : State) : (setDraws n s).dt = s.dt := rfl
@[simp] theorem setDraws_st (n : Nat) (s : State) : (setDraws n s).st = s.st := rfl
@[simp] theorem setDraws_mem (n : Nat) (s : State) : (setDraws n s).mem = s.mem := rfl
@[simp] theorem setDraws_fb (n : Nat) (s : State) : (setDraws n s).fb = s.fb := rfl
@[simp] theorem setDraws_keys (n : Nat) (s : State) : (setDraws n s).keys = s.keys := rfl
@[simp] theorem setDraws_run (n : Nat) (s : State) : (setDraws n s).run = s.run := rfl
@[simp] theorem setDraws_draws (n : Nat) (s : State) : (setDraws n s).draws = n := rfl
@[simp] theorem setDraws_cfg (n : Nat) (s : State) : (setDraws n s).cfg = s.cfg := rfl
@[simp] theorem reg_setDraws (n : Nat) (s : State) (x : Reg) : reg (setDraws n s) x = reg s x := rfl
@[simp] theorem byteAt_setDraws (n : Nat) (s : State) (k : Nat) : byteAt (setDraws n s) k = byteAt s k := rfl

@[simp] theorem raise_v (e : ErrorKind) (info : Word) (s : State) : (raise e info s).v = s.v := rfl
@[simp] theorem setReg_i (x : Reg) (b : Byte) (s : State) : (setReg x b s).i = s.i := rfl
@[simp] theorem raise_i (e : ErrorKind) (info : Word) (s : State) : (raise e info s).i = s.i := rfl
@[simp] theorem setReg_pc (x : Reg) (b : Byte) (s : State) : (setReg x b s).pc = s.pc := rfl
@[simp] theorem raise_pc (e : ErrorKind) (info : Word) (s : State) : (raise e info s).pc = s.pc := rfl
@[simp] theorem setReg_stack (x : Reg) (b : Byte) (s : State) : (setReg x b s).stack = s.stack := rfl
@[simp] theorem raise_stack (e : ErrorKind) (info : Word) (s : State) : (raise e info s).stack = s.stack := rfl
@[simp] theorem setReg_sp (x : Reg) (b : Byte) (s : State) : (setReg x b s).sp = s.sp := rfl
@[simp] theorem raise_sp (e : ErrorKind) (info : Word) (s : State) : (raise e info s).sp = s.sp := rfl
@[simp] theorem setReg_dt (x : Reg) (b : Byte) (s : State) : (setReg x b s).dt = s.dt := rfl
@[simp] theorem raise_dt (e : ErrorKind) (info : Word) (s : State) : (raise e info s).dt = s.dt := rfl
@[simp] theorem setReg_st (x : Reg) (b : Byte) (s : State) : (setReg x b s).st = s.st := rfl
@[simp] theorem raise_st (e : ErrorKind) (info : Word) (s : State) : (raise e info s).st = s.st := rfl
@[simp] theorem setReg_mem (x : Reg) (b : Byte) (s : State) : (setReg x b s).mem = s.mem := rfl
@[simp] theorem raise_mem (e : ErrorKind) (info : Word) (s : State) : (raise e info s).mem = s.mem := rfl
@[simp] theorem setReg_fb (x : Reg) (b : Byte) (s : State) : (setReg x b s).fb = s.fb := rfl
@[simp] theorem raise_fb (e : ErrorKind) (info : Word) (s : State) : (raise e info s).fb = s.fb := rfl
@[simp] theorem setReg_keys (x : Reg) (b : Byte) (s : State) : (setReg x b s).keys = s.keys := rfl
@[simp] theorem raise_keys (e : ErrorKind) (info : Word) (s : State) : (raise e info s).keys = s.keys := rfl
@[simp] theorem setReg_run (x : Reg) (b : Byte) (s : State) : (setReg x b s).run = s.run := rfl
@[simp] theorem setReg_draws (x : Reg) (b : Byte) (s : State) : (setReg x b s).draws = s.draws := rfl
@[simp] theorem raise_draws (e : ErrorKind) (info : Word) (s : State) : (raise e info s).draws = s.draws := rfl
@[simp] theorem setReg_cfg (x : Reg) (b : Byte) (s : State) : (setReg x b s).cfg = s.cfg := rfl
@[simp] theorem raise_cfg (e : ErrorKind) (info : Word) (s : State) : (raise e info s).cfg = s.cfg := rfl
@[simp] theorem raise_run (e : ErrorKind) (info : Word) (s : State) : (raise e info s).run = .faulted e info := rfl
@[simp] theorem reg_raise (e : ErrorKind) (info : Word) (s : State) (x : Reg) : reg (raise e info s) x = reg s x := rfl
@[simp] theorem byteAt_raise (e : ErrorKind) (info : Word) (s : State) (k : Nat) :
    byteAt (raise e info s) k = byteAt s k := rfl
@[simp] theorem byteAt_setReg (x : Reg) (b : Byte) (s : State) (k : Nat) : byteAt (setReg x b s) k = byteAt s k := rfl

@[simp] theorem reg_setV (v : Vector Byte 16) (s : State) (x : Reg) : reg (setV v s) x = v[x] := rfl

/-- A register write is seen in that register and in no other. -/
@[simp] theorem reg_setReg (x y : Reg) (b : Byte) (s : State) :
    reg (setReg x b s) y = if y = x then b else reg s y := by
  show (s.v.set x b)[y.val] = _
  rw [Vector.getElem_set]
  by_cases h : y = x
  · simp [h]
  · have : x.val ≠ y.val := fun e => h (Fin.ext e.symm)
    simp [h, this, reg]

end Sys2Proof.Machine
end

