-- ==== Sys2Proof/Laws/Memory.lean ====
section
/-! SUPPORT. Memory: what a read gives after a write, and that every memory operation keeps the canonical form. -/

namespace Sys2Proof.Machine

/-! ## Lists of cells -/

/-- Every address of the list lies above `a`. -/
def allAbove (a : Nat) (m : List Host.Cell) : Prop := ∀ e ∈ m, a < e.1

theorem rising_cons {c : Host.Cell} {m : List Host.Cell} (h : rising (c :: m) = true) :
    rising m = true ∧ allAbove c.1 m := by
  induction m generalizing c with
  | nil => exact ⟨rfl, by simp [allAbove]⟩
  | cons d t ih =>
    simp only [rising, Bool.and_eq_true, decide_eq_true_eq] at h
    obtain ⟨hr, hd⟩ := ih h.2
    refine ⟨h.2, ?_⟩
    intro e he
    rcases List.mem_cons.1 he with rfl | he
    · exact h.1
    · exact Nat.lt_trans h.1 (hd e he)

theorem rising_of_allAbove {c : Host.Cell} {m : List Host.Cell} (hm : rising m = true) (h : allAbove c.1 m) :
    rising (c :: m) = true := by
  cases m with
  | nil => rfl
  | cons d t => simp only [rising, Bool.and_eq_true, decide_eq_true_eq]; exact ⟨h d (by simp), hm⟩

theorem lookupCell_of_allAbove {bg : Byte} {a : Nat} {m : List Host.Cell} (h : allAbove a m) :
    lookupCell bg a m = bg := by
  induction m with
  | nil => rfl
  | cons c t ih =>
    have hc : a < c.1 := h c (by simp)
    rw [lookupCell, if_neg (by omega)]
    exact ih fun e he => h e (by simp [he])

/-- A cell that the list does not name reads as the background. -/
theorem lookupCell_of_not_listed {bg : Byte} {a : Nat} {m : List Host.Cell} (h : ∀ e ∈ m, e.1 ≠ a) :
    lookupCell bg a m = bg := by
  induction m with
  | nil => rfl
  | cons c t ih => rw [lookupCell, if_neg (h c (by simp)), ih fun e he => h e (by simp [he])]

theorem allAbove_trans {a b : Nat} {m : List Host.Cell} (h : a < b) (hm : allAbove b m) : allAbove a m :=
  fun e he => Nat.lt_trans h (hm e he)

/-- A byte written is the byte read, and every other byte is as before. -/
theorem lookupCell_insertCell {bg bg' : Byte} {a k : Nat} {b : Byte} {m : List Host.Cell} (hm : rising m = true)
    (hbg : k = a → bg' = bg) :
    lookupCell bg' k (insertCell bg a b m) = if k = a then b else lookupCell bg' k m := by
  induction m with
  | nil =>
    by_cases hk : k = a
    · subst hk; rw [hbg rfl]; by_cases hb : b = bg <;> simp [insertCell, lookupCell, hb]
    · by_cases hb : b = bg <;> simp [insertCell, lookupCell, hb, hk, Ne.symm hk]
  | cons c t ih =>
    obtain ⟨ht, hc⟩ := rising_cons hm
    obtain ⟨j, v⟩ := c
    simp only [insertCell]
    by_cases h1 : a < j
    · have habove : allAbove a ((j, v) :: t) := by
        intro e he
        rcases List.mem_cons.1 he with rfl | he
        · exact h1
        · exact Nat.lt_trans h1 (hc e he)
      by_cases hk : k = a
      · subst hk; rw [hbg rfl]
        by_cases hb : b = bg
        · simp only [h1, hb, if_true]; exact lookupCell_of_allAbove habove
        · simp [h1, hb, lookupCell]
      · by_cases hb : b = bg
        · simp [h1, hb, hk]
        · rw [if_pos h1, if_neg hb, lookupCell, if_neg (Ne.symm hk), if_neg hk]
    · by_cases h2 : a = j
      · subst h2
        by_cases hk : k = a
        · subst hk; rw [hbg rfl]
          by_cases hb : b = bg
          · simp only [hb, if_true, Nat.lt_irrefl, if_false]; exact lookupCell_of_allAbove hc
          · simp [hb, lookupCell]
        · by_cases hb : b = bg <;> simp [hb, hk, lookupCell, Ne.symm hk]
      · simp only [h1, h2, if_false, lookupCell, ih ht]
        by_cases hk : k = a
        · subst hk; simp [Ne.symm h2]
        · simp [hk]

theorem mem_insertCell {bg : Byte} {a : Nat} {b : Byte} {m : List Host.Cell} {e : Host.Cell}
    (h : e ∈ insertCell bg a b m) : (e = (a, b) ∧ b ≠ bg) ∨ e ∈ m := by
  induction m with
  | nil =>
    by_cases hb : b = bg
    · simp [insertCell, hb] at h
    · simp only [insertCell, hb, if_false, List.mem_singleton] at h; exact .inl ⟨h, hb⟩
  | cons c t ih =>
    obtain ⟨j, v⟩ := c
    simp only [insertCell] at h
    split at h
    · split at h
      · exact .inr h
      · rcases List.mem_cons.1 h with rfl | h
        · exact .inl ⟨rfl, by assumption⟩
        · exact .inr h
    · split at h
      · split at h
        · exact .inr (List.mem_cons_of_mem _ h)
        · rcases List.mem_cons.1 h with rfl | h
          · exact .inl ⟨rfl, by assumption⟩
          · exact .inr (List.mem_cons_of_mem _ h)
      · rcases List.mem_cons.1 h with rfl | h
        · exact .inr (by simp)
        · rcases ih h with h | h
          · exact .inl h
          · exact .inr (List.mem_cons_of_mem _ h)

theorem rising_insertCell {bg : Byte} {a : Nat} {b : Byte} {m : List Host.Cell} (hm : rising m = true) :
    rising (insertCell bg a b m) = true := by
  induction m with
  | nil => simp only [insertCell]; split <;> rfl
  | cons c t ih =>
    obtain ⟨ht, hc⟩ := rising_cons hm
    obtain ⟨j, v⟩ := c
    simp only [insertCell]
    split
    · split
      · exact hm
      · refine rising_of_allAbove hm ?_
        intro e he
        rcases List.mem_cons.1 he with rfl | he
        · assumption
        · exact Nat.lt_trans (by assumption) (hc e he)
    · split
      · split
        · exact ht
        · refine rising_of_allAbove ht ?_
          rename_i h _
          exact h ▸ hc
      · refine rising_of_allAbove (ih ht) ?_
        intro e he
        rcases mem_insertCell he with ⟨rfl, -⟩ | he
        · show j < a; omega
        · exact hc e he

/-- One write keeps the canonical form. -/
theorem memWf_insertCell {c : Config} {a : Nat} {b : Byte} {m : List Host.Cell} (ha : a < memSize)
    (hm : memWf c m = true) : memWf c (insertCell (background c a) a b m) = true := by
  simp only [memWf, Bool.and_eq_true, List.all_eq_true, decide_eq_true_eq, bne_iff_ne] at hm ⊢
  refine ⟨rising_insertCell hm.1, ?_⟩
  intro e he
  rcases mem_insertCell he with ⟨rfl, hb⟩ | he
  · exact ⟨ha, hb⟩
  · exact hm.2 e he

/-! ## The operations of the machine -/

theorem rising_of_memWf {c : Config} {m : List Host.Cell} (h : memWf c m = true) : rising m = true := by
  simp only [memWf, Bool.and_eq_true] at h; exact h.1

/-- R66: after a write the byte written reads as written, and every other byte as before. -/
theorem byteAt_setByte {s : State} {a k : Nat} {b : Byte} (hm : rising s.mem = true) :
    byteAt (setByte a b s) k = if k = a then b else byteAt s k := by
  simp only [byteAt, setByte, setMem_mem, setMem_cfg]
  exact lookupCell_insertCell hm (by rintro rfl; rfl)

theorem setByte_rising {s : State} {a : Nat} {b : Byte} (hm : rising s.mem = true) :
    rising (setByte a b s).mem = true := rising_insertCell hm

theorem setByte_memWf {s : State} {a : Nat} {b : Byte} (ha : a < memSize) (hm : memWf s.cfg s.mem = true) :
    memWf (setByte a b s).cfg (setByte a b s).mem = true := memWf_insertCell ha hm

/-- Storing bytes changes memory and no other field. -/
theorem storeBytes_eq_setMem (a : Nat) (bytes : List Byte) (s : State) :
    storeBytes a bytes s = setMem (storeBytes a bytes s).mem s := by
  induction bytes generalizing a s with
  | nil => rfl
  | cons b t ih =>
    rw [storeBytes, ih (a + 1) (setByte a b s)]
    rfl

@[simp] theorem storeBytes_v (a : Nat) (l : List Byte) (s : State) : (storeBytes a l s).v = s.v := by
  rw [storeBytes_eq_setMem]; rfl
@[simp] theorem storeBytes_i (a : Nat) (l : List Byte) (s : State) : (storeBytes a l s).i = s.i := by
  rw [storeBytes_eq_setMem]; rfl
@[simp] theorem storeBytes_pc (a : Nat) (l : List Byte) (s : State) : (storeBytes a l s).pc = s.pc := by
  rw [storeBytes_eq_setMem]; rfl
@[simp] theorem storeBytes_stack (a : Nat) (l : List Byte) (s : State) : (storeBytes a l s).stack = s.stack := by
  rw [storeBytes_eq_setMem]; rfl
@[simp] theorem storeBytes_sp (a : Nat) (l : List Byte) (s : State) : (storeBytes a l s).sp = s.sp := by
  rw [storeBytes_eq_setMem]; rfl
@[simp] theorem storeBytes_dt (a : Nat) (l : List Byte) (s : State) : (storeBytes a l s).dt = s.dt := by
  rw [storeBytes_eq_setMem]; rfl
@[simp] theorem storeBytes_st (a : Nat) (l : List Byte) (s : State) : (storeBytes a l s).st = s.st := by
  rw [storeBytes_eq_setMem]; rfl
@[simp] theorem storeBytes_fb (a : Nat) (l : List Byte) (s : State) : (storeBytes a l s).fb = s.fb := by
  rw [storeBytes_eq_setMem]; rfl
@[simp] theorem storeBytes_keys (a : Nat) (l : List Byte) (s : State) : (storeBytes a l s).keys = s.keys := by
  rw [storeBytes_eq_setMem]; rfl
@[simp] theorem storeBytes_run (a : Nat) (l : List Byte) (s : State) : (storeBytes a l s).run = s.run := by
  rw [storeBytes_eq_setMem]; rfl
@[simp] theorem storeBytes_draws (a : Nat) (l : List Byte) (s : State) : (storeBytes a l s).draws = s.draws := by
  rw [storeBytes_eq_setMem]; rfl
@[simp] theorem storeBytes_cfg (a : Nat) (l : List Byte) (s : State) : (storeBytes a l s).cfg = s.cfg := by
  rw [storeBytes_eq_setMem]; rfl
@[simp] theorem reg_storeBytes (a : Nat) (l : List Byte) (s : State) (x : Reg) : reg (storeBytes a l s) x = reg s x := by
  rw [storeBytes_eq_setMem]; rfl

/-- The bytes stored stand at their addresses, and every other byte is as before. -/
theorem byteAt_storeBytes {bytes : List Byte} {s : State} {a k : Nat} (hm : rising s.mem = true) :
    byteAt (storeBytes a bytes s) k =
      if a ≤ k ∧ k < a + bytes.length then bytes.getD (k - a) 0 else byteAt s k := by
  induction bytes generalizing a s with
  | nil =>
    rw [if_neg (by simp)]
    rfl
  | cons b t ih =>
    rw [storeBytes, ih (setByte_rising hm), byteAt_setByte hm]
    by_cases h : k = a
    · subst h
      rw [if_neg (by omega), if_pos rfl, if_pos (by simp)]
      simp
    · by_cases h2 : a + 1 ≤ k ∧ k < a + 1 + t.length
      · rw [if_pos h2, if_pos (by simp; omega), show k - a = (k - (a + 1)) + 1 by omega]
        simp
      · rw [if_neg h2, if_neg h, if_neg (by simp; omega)]

/-- Storing bytes below 4096 keeps the canonical form. -/
theorem storeBytes_memWf {bytes : List Byte} {s : State} {a : Nat} (ha : a + bytes.length ≤ memSize)
    (hm : memWf s.cfg s.mem = true) : memWf s.cfg (storeBytes a bytes s).mem = true := by
  induction bytes generalizing a s with
  | nil => exact hm
  | cons b t ih =>
    simp only [List.length_cons] at ha
    rw [storeBytes]
    exact ih (s := setByte a b s) (by omega) (setByte_memWf (by omega) hm)

theorem reset_memWf (c : Config) : memWf c (State.resetWith c).mem = true := rfl

@[simp] theorem loadBytes_length (s : State) (a n : Nat) : (loadBytes s a n).length = n := by simp [loadBytes]

theorem loadBytes_getD {s : State} {a n j : Nat} {d : Byte} (h : j < n) : (loadBytes s a n).getD j d = byteAt s (a + j) := by
  simp [loadBytes, h]

/-! ## Bounds -/

/-- R67: the check of a span of `len` addresses. -/
theorem badSpan_eq_none {a : Word} {len : Nat} : badSpan a len = none ↔ len = 0 ∨ a.toNat + len ≤ 4096 := by
  unfold badSpan
  split
  · simp only [reduceCtorEq, false_iff]; omega
  · simp only [true_iff]; omega

theorem badSpan_eq_some {a : Word} {len : Nat} (h : ¬(len = 0 ∨ a.toNat + len ≤ 4096)) :
    badSpan a len = some (BitVec.ofNat 16 (max a.toNat 4096)) := by
  unfold badSpan
  rw [if_pos (by omega)]

/-- What the check of a span does: the instruction acts, or it raises and does nothing else. -/
theorem withSpan_fits {len : Nat} {s : State} {act : State → State} (h : len = 0 ∨ s.i.toNat + len ≤ 4096) :
    withSpan len s act = act s := by
  rw [withSpan, badSpan_eq_none.2 h]

theorem withSpan_raises {len : Nat} {s : State} {act : State → State} (h : ¬(len = 0 ∨ s.i.toNat + len ≤ 4096)) :
    withSpan len s act = raise .memoryAccessOutOfRange (BitVec.ofNat 16 (max s.i.toNat 4096)) s := by
  rw [withSpan, badSpan_eq_some h]

theorem withSpan_cases (len : Nat) (s : State) (act : State → State) :
    ((len = 0 ∨ s.i.toNat + len ≤ 4096) ∧ withSpan len s act = act s) ∨
    (¬(len = 0 ∨ s.i.toNat + len ≤ 4096) ∧
      withSpan len s act = raise .memoryAccessOutOfRange (BitVec.ofNat 16 (max s.i.toNat 4096)) s) := by
  by_cases h : len = 0 ∨ s.i.toNat + len ≤ 4096
  · exact .inl ⟨h, withSpan_fits h⟩
  · exact .inr ⟨h, withSpan_raises h⟩

end Sys2Proof.Machine
end

