-- ==== Sys2Proof/Laws/Ops.lean ====
section
/-! SUPPORT. The shared operations, each said once: the fetch, push and pop, the skip, placing a word. -/

namespace Sys2Proof.Machine

/-! ## Accesses -/

theorem memRead_ok {s : State} {a : Nat} (h : a ≤ 4095) : memRead s a = .ok (byteAt s a) := by
  rw [memRead, if_neg (by omega)]

theorem memRead_error {s : State} {a : Nat} (h : 4095 < a) : memRead s a = .error (BitVec.ofNat 16 a) := by
  rw [memRead, if_pos h]

theorem memWrite_ok {s : State} {a : Nat} {b : Byte} (h : a ≤ 4095) : memWrite a b s = .ok (setByte a b s) := by
  rw [memWrite, if_neg (by omega)]

theorem memWrite_error {s : State} {a : Nat} {b : Byte} (h : 4095 < a) :
    memWrite a b s = .error (BitVec.ofNat 16 a) := by
  rw [memWrite, if_pos h]

/-- R120: a fetch from a PC up to 4094 gives the two bytes there, the one at PC in the high half. -/
theorem fetchWord_ok {s : State} (h : s.pc.toNat ≤ 4094) :
    fetchWord s = .ok (wordOfBytes (byteAt s s.pc.toNat) (byteAt s (s.pc.toNat + 1))) := by
  simp only [fetchWord, memRead_ok (show s.pc.toNat ≤ 4095 by omega), memRead_ok (show s.pc.toNat + 1 ≤ 4095 by omega)]

/-- R121: a fetch from a PC above 4094 reports the lowest bad address. -/
theorem fetchWord_error {s : State} (h : 4094 < s.pc.toNat) :
    fetchWord s = .error (BitVec.ofNat 16 (max s.pc.toNat 4096)) := by
  by_cases h2 : s.pc.toNat = 4095
  · simp only [fetchWord, memRead_ok (show s.pc.toNat ≤ 4095 by omega), memRead_error (show 4095 < s.pc.toNat + 1 by omega)]
    rw [h2]; rfl
  · simp only [fetchWord, memRead_error (show 4095 < s.pc.toNat by omega)]
    rw [Nat.max_eq_left (by omega)]

/-! ## PC -/

@[simp] theorem skipIf_true (s : State) : skipIf true s = advancePc s := rfl
@[simp] theorem skipIf_false (s : State) : skipIf false s = s := rfl
theorem advancePc_eq (s : State) : advancePc s = setPc (s.pc + 2) s := rfl
theorem skipIf_eq (c : Bool) (s : State) : skipIf c s = setPc (if c then s.pc + 2 else s.pc) s := by
  cases c <;> rfl

/-! ## Stack -/

theorem push_some {a : Word} {s : State} (h : s.sp < s.stack.length) :
    push a s = some (setStack (s.stack.set s.sp a) (s.sp + 1) s) := by rw [push, if_pos h]

theorem push_none {a : Word} {s : State} (h : ¬s.sp < s.stack.length) : push a s = none := by rw [push, if_neg h]

theorem pop_some {s : State} {a : Word} (h : s.stack[s.sp - 1]? = some a) :
    pop s = some (a, setStack s.stack (s.sp - 1) s) := by rw [pop, h]

theorem pop_none {s : State} (h : s.stack[s.sp - 1]? = none) : pop s = none := by rw [pop, h]

/-! ## Placing a word -/

@[simp] theorem placeWord_run (w : Word) (s : State) : (placeWord w s).run = .running := rfl

theorem placeWord_pc (w : Word) (s : State) :
    (placeWord w s).pc = if s.pc.toNat ≤ 4094 then s.pc else BitVec.ofNat 16 programBase := by simp [placeWord]

theorem placeWord_pc_le (w : Word) (s : State) : (placeWord w s).pc.toNat ≤ 4094 := by
  rw [placeWord_pc]; split
  · assumption
  · decide

/-- The fetch reads the word that was placed. -/
theorem fetchWord_placeWord {w : Word} {s : State} (hm : rising s.mem = true) : fetchWord (placeWord w s) = .ok w := by
  rw [fetchWord_ok (placeWord_pc_le w s)]
  have hb (k : Nat) : byteAt (placeWord w s) k =
      byteAt (storeBytes (placeWord w s).pc.toNat [highByte w, lowByte w] (setPc (placeWord w s).pc s)) k := by
    rw [placeWord_pc]; rfl
  rw [hb, hb, byteAt_storeBytes (by simpa using hm), byteAt_storeBytes (by simpa using hm)]
  simp

end Sys2Proof.Machine
end

