-- ==== Sys2Proof/Laws/Values.lean ====
section
/-! SUPPORT. What the operand forms and the ALU's results are, as numbers (spec 30 R93, 42 R150), and the flag written last. -/

namespace Sys2Proof.Machine

@[simp] theorem addrOperand_toNat (nnn : Addr) : (addrOperand nnn).toNat = nnn.toNat := by
  have := nnn.isLt
  simp only [addrOperand, BitVec.toNat_setWidth]; omega

@[simp] theorem offsetTarget_toNat (nnn : Addr) (b : Byte) : (offsetTarget nnn b).toNat = nnn.toNat + b.toNat := by
  have := nnn.isLt; have := b.isLt
  simp only [offsetTarget, BitVec.toNat_ofNat]; omega

@[simp] theorem indexSum_toNat (a : Word) (b : Byte) : (indexSum a b).toNat = (a.toNat + b.toNat) % 65536 := by
  simp only [indexSum, BitVec.toNat_ofNat]

theorem fontAddress_toNat {c : Config} (b : Byte) (h : c.fontBase + 80 ≤ 0x200) :
    (fontAddress c b).toNat = c.fontBase + 5 * b.toNat := by
  have := b.isLt
  simp only [fontAddress, BitVec.toNat_ofNat]; omega

theorem keyOperand_some {b : Byte} {k : Key} (h : b.toNat = k.val) : keyOperand b = some k := by
  have : b.toNat < 16 := h ▸ k.isLt
  simp only [keyOperand, this, dite_true, Option.some.injEq]
  exact Fin.ext h

theorem keyOperand_none {b : Byte} (h : 15 < b.toNat) : keyOperand b = none := by
  simp only [keyOperand, dite_eq_right_iff, reduceCtorEq, imp_false]; omega

@[simp] theorem bcdDigits_length (b : Byte) : (bcdDigits b).length = 3 := rfl

@[simp] theorem regBlock_length (s : State) (x : Reg) : (regBlock s x).length = x.val + 1 := by
  simp [regBlock]

theorem regBlock_getD {s : State} {x j : Reg} {d : Byte} (h : j ≤ x) : (regBlock s x).getD j.val d = reg s j := by
  have h1 : j.val < x.val + 1 := Nat.lt_succ_of_le h
  have h2 : j.val < 16 := j.isLt
  simp only [regBlock, List.getD_eq_getElem?_getD, List.getElem?_take, h1, if_true]
  simp [reg]

@[simp] theorem loadBlock_getElem (l : List Byte) (v : Vector Byte 16) (j : Reg) :
    (loadBlock l v)[j] = l.getD j.val v[j] := by
  simp [loadBlock]

@[simp] theorem addResult_toNat (a b : Byte) : (addResult a b).toNat = (a.toNat + b.toNat) % 256 := by
  simp only [addResult, BitVec.toNat_ofNat]

@[simp] theorem subResult_toNat (a b : Byte) : (subResult a b).toNat = (256 + a.toNat - b.toNat) % 256 := by
  have := a.isLt; have := b.isLt
  simp only [subResult, BitVec.toNat_ofInt]; omega

@[simp] theorem shrResult_toNat (a : Byte) : (shrResult a).toNat = a.toNat / 2 := by
  simp only [shrResult, BitVec.toNat_ushiftRight, Nat.shiftRight_eq_div_pow]

@[simp] theorem shlResult_toNat (a : Byte) : (shlResult a).toNat = a.toNat * 2 % 256 := by
  simp only [shlResult, BitVec.toNat_shiftLeft, Nat.shiftLeft_eq]

@[simp] theorem flagByte_toNat (c : Bool) : (flagByte c).toNat = if c then 1 else 0 := by cases c <;> rfl

theorem flagByte_shrOut (a : Byte) : (flagByte (shrOut a)).toNat = a.toNat % 2 := by
  simp only [flagByte_toNat, shrOut, BitVec.getLsbD, Nat.testBit_zero]
  rcases Nat.mod_two_eq_zero_or_one a.toNat with h | h <;> simp [h]

theorem flagByte_shlOut (a : Byte) : (flagByte (shlOut a)).toNat = a.toNat / 128 := by
  have := a.isLt
  simp only [flagByte_toNat, shlOut, BitVec.getLsbD, Nat.testBit_eq_decide_div_mod_eq]
  by_cases h : a.toNat / 128 = 1
  · simp [h]
  · have : a.toNat / 128 = 0 := by omega
    simp [this]

theorem flagByte_cases (c : Bool) : flagByte c = 0 ∨ flagByte c = 1 := by cases c <;> simp [flagByte]

/-! ## The result and then the flag (R24, R160) -/

@[simp] theorem reg_setResultFlag (x j : Reg) (r : Byte) (c : Bool) (s : State) :
    reg (setResultFlag x r c s) j = if j = vf then flagByte c else if j = x then r else reg s j := by
  simp [setResultFlag]

/-- Registers apart, the result and the flag leave everything as it is. -/
theorem setResultFlag_eq_setV (x : Reg) (r : Byte) (c : Bool) (s : State) :
    setResultFlag x r c s = setV (setResultFlag x r c s).v s := rfl

theorem setReg_eq_setV (x : Reg) (b : Byte) (s : State) : setReg x b s = setV (setReg x b s).v s := rfl

end Sys2Proof.Machine
end

