-- ==== Sys2Proof/Laws/Frames.lean ====
section
/-! SUPPORT. Frames: what each shared operation changes, and how frames compose. -/

namespace Sys2Proof.Safety

open Sys2Proof.Machine

theorem samePart_refl (p : Part) (s : State) : samePart p s s := by cases p <;> simp [samePart]

theorem samePart_trans {p : Part} {s t u : State} (h : samePart p s t) (k : samePart p t u) : samePart p s u := by
  cases p <;> simp_all [samePart]

theorem ChangesOnly.refl (ps : List Part) (s : State) : ChangesOnly ps s s := ⟨rfl, fun p _ => samePart_refl p s⟩

theorem ChangesOnly.trans {ps : List Part} {s t u : State} (h : ChangesOnly ps s t) (k : ChangesOnly ps t u) :
    ChangesOnly ps s u := ⟨k.1.trans h.1, fun p hp => samePart_trans (h.2 p hp) (k.2 p hp)⟩

theorem ChangesOnly.mono {ps qs : List Part} {s t : State} (h : ChangesOnly ps s t) (hq : ∀ p ∈ ps, p ∈ qs) :
    ChangesOnly qs s t := ⟨h.1, fun p hp => h.2 p fun hps => hp (hq p hps)⟩

theorem changesOnly_setV (v : Vector Byte 16) (s : State) : ChangesOnly [.v] s (setV v s) :=
  ⟨rfl, fun p hp => by cases p <;> simp_all [samePart]⟩
theorem changesOnly_setReg (x : Reg) (b : Byte) (s : State) : ChangesOnly [.v] s (setReg x b s) := changesOnly_setV _ s
theorem changesOnly_setI (a : Word) (s : State) : ChangesOnly [.i] s (setI a s) :=
  ⟨rfl, fun p hp => by cases p <;> simp_all [samePart]⟩
theorem changesOnly_setPc (a : Word) (s : State) : ChangesOnly [.pc] s (setPc a s) :=
  ⟨rfl, fun p hp => by cases p <;> simp_all [samePart]⟩
theorem changesOnly_setStack (l : List Word) (n : Nat) (s : State) : ChangesOnly [.stack] s (setStack l n s) :=
  ⟨rfl, fun p hp => by cases p <;> simp_all [samePart]⟩
theorem changesOnly_setDt (b : Byte) (s : State) : ChangesOnly [.dt] s (setDt b s) :=
  ⟨rfl, fun p hp => by cases p <;> simp_all [samePart]⟩
theorem changesOnly_setSt (b : Byte) (s : State) : ChangesOnly [.st] s (setSt b s) :=
  ⟨rfl, fun p hp => by cases p <;> simp_all [samePart]⟩
theorem changesOnly_setMem (m : List Host.Cell) (s : State) : ChangesOnly [.mem] s (setMem m s) :=
  ⟨rfl, fun p hp => by cases p <;> simp_all [samePart]⟩
theorem changesOnly_setFb (f : Frame) (s : State) : ChangesOnly [.fb] s (setFb f s) :=
  ⟨rfl, fun p hp => by cases p <;> simp_all [samePart]⟩
theorem changesOnly_setKeys (k : Vector Bool 16) (s : State) : ChangesOnly [.keys] s (setKeys k s) :=
  ⟨rfl, fun p hp => by cases p <;> simp_all [samePart]⟩
theorem changesOnly_setRun (r : RunState) (s : State) : ChangesOnly [.run] s (setRun r s) :=
  ⟨rfl, fun p hp => by cases p <;> simp_all [samePart]⟩
theorem changesOnly_setDraws (n : Nat) (s : State) : ChangesOnly [.draws] s (setDraws n s) :=
  ⟨rfl, fun p hp => by cases p <;> simp_all [samePart]⟩
theorem changesOnly_storeBytes (a : Nat) (l : List Byte) (s : State) : ChangesOnly [.mem] s (storeBytes a l s) := by
  rw [storeBytes_eq_setMem]; exact changesOnly_setMem _ s
theorem changesOnly_setResultFlag (x : Reg) (r : Byte) (c : Bool) (s : State) :
    ChangesOnly [.v] s (setResultFlag x r c s) := changesOnly_setV _ s
theorem changesOnly_skipIf (c : Bool) (s : State) : ChangesOnly [.pc] s (skipIf c s) := by
  rw [skipIf_eq]; exact changesOnly_setPc _ s

/-- R221: raising changes RUN and nothing else. -/
theorem raisedFrom_raise (e : ErrorKind) (info : Word) (s : State) : RaisedFrom e info s (raise e info s) :=
  ⟨rfl, changesOnly_setRun _ s⟩

end Sys2Proof.Safety
end

