-- ==== Sys2Proof/Laws/Step.lean ====
section
/-! SUPPORT. What one step can do, said once, and what one instruction can do. -/

namespace Sys2Proof.Machine

theorem step_of_not_running {s : State} (h : s.run ≠ .running) : step s = .next s := by
  unfold step cycle
  split
  · exact absurd (by assumption) h
  · rfl
  · rfl

theorem step_of_running {s : State} (h : s.run = .running) : step s = fetchAndRun s := by
  unfold step cycle; rw [h]

/-- The four things a step can be: a hold, a fetch that raises, an invalid word that raises, an instruction. -/
theorem step_cases (s : State) :
    (s.run ≠ .running ∧ step s = .next s) ∨
    (s.run = .running ∧ 4094 < s.pc.toNat ∧
      step s = .next (raise .memoryAccessOutOfRange (BitVec.ofNat 16 (max s.pc.toNat 4096)) s)) ∨
    (s.run = .running ∧ s.pc.toNat ≤ 4094 ∧ ∃ w, fetchWord s = .ok w ∧ decode w = none ∧
      step s = .next (raise .invalidOpcode w (advancePc s))) ∨
    (s.run = .running ∧ s.pc.toNat ≤ 4094 ∧ ∃ w i, fetchWord s = .ok w ∧ decode w = some i ∧
      step s = exec i (advancePc s)) := by
  by_cases hr : s.run = .running
  · rw [step_of_running hr]
    by_cases hp : s.pc.toNat ≤ 4094
    · have hf := fetchWord_ok hp
      cases hd : decode (wordOfBytes (byteAt s s.pc.toNat) (byteAt s (s.pc.toNat + 1))) with
      | none =>
        refine .inr (.inr (.inl ⟨hr, hp, _, hf, hd, ?_⟩))
        simp only [fetchAndRun, hf, runWord, hd]
      | some i =>
        refine .inr (.inr (.inr ⟨hr, hp, _, i, hf, hd, ?_⟩))
        simp only [fetchAndRun, hf, runWord, hd]
    · have hf := fetchWord_error (s := s) (by omega)
      refine .inr (.inl ⟨hr, by omega, ?_⟩)
      simp only [fetchAndRun, hf]
  · exact .inl ⟨hr, step_of_not_running hr⟩

/-- RET: the empty stack, a popped entry, or no such entry. -/
theorem execRet_cases (s : State) :
    (s.sp = 0 ∧ execRet s = .next (raise .stackUnderflow 0 s)) ∨
    (0 < s.sp ∧ ∃ a, s.stack[s.sp - 1]? = some a ∧
      execRet s = .next (setPc a (setStack s.stack (s.sp - 1) s))) ∨
    (0 < s.sp ∧ s.stack[s.sp - 1]? = none ∧ execRet s = .fault .stackEntryMissing) := by
  by_cases h : s.sp = 0
  · exact .inl ⟨h, by rw [execRet, if_pos h]⟩
  · cases ha : s.stack[s.sp - 1]? with
    | some a => exact .inr (.inl ⟨by omega, a, rfl, by rw [execRet, if_neg h, pop_some ha]⟩)
    | none => exact .inr (.inr ⟨by omega, rfl, by rw [execRet, if_neg h, pop_none ha]⟩)

/-- CALL: the full stack, a pushed entry, or no such entry. -/
theorem execCall_cases (nnn : Addr) (s : State) :
    (s.sp = s.cfg.stackDepth ∧ execCall nnn s = .next (raise .stackOverflow 0 s)) ∨
    (s.sp ≠ s.cfg.stackDepth ∧ s.sp < s.stack.length ∧
      execCall nnn s = .next (setPc (addrOperand nnn) (setStack (s.stack.set s.sp s.pc) (s.sp + 1) s))) ∨
    (s.sp ≠ s.cfg.stackDepth ∧ ¬s.sp < s.stack.length ∧ execCall nnn s = .fault .stackEntryMissing) := by
  by_cases h : s.sp = s.cfg.stackDepth
  · exact .inl ⟨h, by rw [execCall, if_pos h]⟩
  · by_cases hl : s.sp < s.stack.length
    · exact .inr (.inl ⟨h, hl, by rw [execCall, if_neg h, push_some hl]⟩)
    · exact .inr (.inr ⟨h, hl, by rw [execCall, if_neg h, push_none hl]⟩)

/-- A skip on a key: it skips on the key's state, or the value is no key number. -/
theorem skipOnKey_cases (x : Reg) (wanted : Bool) (s : State) :
    (∃ k : Key, (reg s x).toNat = k.val ∧ skipOnKey x wanted s = skipIf (s.keys[k] == wanted) s) ∨
    (15 < (reg s x).toNat ∧ skipOnKey x wanted s = raise .keyIndexOutOfRange ((reg s x).zeroExtend 16) s) := by
  by_cases h : (reg s x).toNat < 16
  · refine .inl ⟨⟨_, h⟩, rfl, ?_⟩
    rw [skipOnKey, keyOperand_some (k := ⟨_, h⟩) rfl]
  · refine .inr ⟨by omega, ?_⟩
    rw [skipOnKey, keyOperand_none (by omega)]

end Sys2Proof.Machine
end

