-- ==== Sys2Proof/Laws/Environment.lean ====
section
/-! SUPPORT. The operations of the environment: what one can answer, and how sequences compose. -/

namespace Sys2Proof.Machine

open Sys2Proof.Safety

@[simp] theorem inPhase_next (p : BootPhase) (s : State) : inPhase p (.next s) = .next { core := s, phase := p } := rfl

/-- An operation has no meaning and is refused, or it acts on the core and moves the phase. -/
theorem operate_cases (op : Operation) (c : Session) :
    (bootNext c.phase op = none ∧ operate op c = .refused .outsideBootOrder) ∨
    (∃ p, bootNext c.phase op = some p ∧ operate op c = inPhase p (perform op c.core)) := by
  cases h : bootNext c.phase op with
  | none => exact .inl ⟨rfl, by rw [operate, h]⟩
  | some p => exact .inr ⟨p, rfl, by rw [operate, h]⟩

theorem operate_refused {op : Operation} {c : Session} (h : bootNext c.phase op = none) :
    operate op c = .refused .outsideBootOrder := by rw [operate, h]

theorem operate_next {op : Operation} {c : Session} {p : BootPhase} {t : State} (h : bootNext c.phase op = some p)
    (ht : perform op c.core = .next t) : operate op c = .next { core := t, phase := p } := by rw [operate, h, ht]; rfl

/-- A next session comes from a next state of the core and a phase the operation leads to. -/
theorem operate_next_iff {op : Operation} {c d : Session} :
    operate op c = .next d ↔ bootNext c.phase op = some d.phase ∧ perform op c.core = .next d.core := by
  constructor
  · intro h
    rcases operate_cases op c with ⟨_, e⟩ | ⟨p, hp, e⟩
    · cases e.symm.trans h
    · cases hf : perform op c.core with
      | next t => rw [hf] at e; cases e.symm.trans h; exact ⟨hp, rfl⟩
      | fault r => rw [hf] at e; cases e.symm.trans h
      | refused r => rw [hf] at e; cases e.symm.trans h
  · rintro ⟨hp, ht⟩; exact operate_next hp ht

@[simp] theorem operateAll_nil (c : Session) : operateAll [] c = .next c := rfl

theorem operateAll_cons_next {op : Operation} {rest : List Operation} {c d : Session} (h : operate op c = .next d) :
    operateAll (op :: rest) c = operateAll rest d := by rw [operateAll, h]

theorem operateAll_cons_refused {op : Operation} {rest : List Operation} {c : Session} {r : Refusal}
    (h : operate op c = .refused r) : operateAll (op :: rest) c = .refused r := by rw [operateAll, h]

/-- Only reset leads back to where a load_rom has a meaning. -/
theorem bootNext_ne_fresh {p q : BootPhase} {op : Operation} (hp : p ≠ .fresh) (ho : op ≠ .reset)
    (h : bootNext p op = some q) : q ≠ .fresh := by
  cases op <;> cases p <;> cases q <;> simp_all [bootNext]

/-- A step and a load_rom lead to where a load_rom has no meaning. -/
theorem bootNext_step_ne_fresh {p q : BootPhase} {op : Operation} (ho : op = .step ∨ ∃ image, op = .loadRom image)
    (h : bootNext p op = some q) : q ≠ .fresh := by
  rcases ho with rfl | ⟨_, rfl⟩ <;> cases p <;> cases q <;> simp_all [bootNext]

/-- An operation the environment owes has a meaning. -/
theorem bootNext_of_owes {p : BootPhase} {op : Operation} (h : bootOwes p op = true) :
    ∃ q, bootNext p op = some q := by
  cases op <;> simp_all [bootOwes, bootNext]

end Sys2Proof.Machine
end

