-- ==== Sys2Proof/Laws/WellFormed.lean ====
section
/-! SUPPORT. The checks of WellFormed as facts about numbers. -/

namespace Sys2Proof

theorem Config.wf_iff (c : Config) : c.wf = true ↔ c.fontBase + 80 ≤ 0x200 ∧ c.font.length = 80 := by
  simp only [Config.wf, Config.fontBelowProgram, Config.fontSized, Bool.and_eq_true, decide_eq_true_eq]

theorem romFits_iff (image : List Byte) : romFits image = true ↔ image.length ≤ 3584 := by
  simp only [romFits, decide_eq_true_eq]
  exact Iff.rfl

end Sys2Proof
end

