-- ==== Sys2Proof/Tests/Slice0.lean ====
section
/-! SUPPORT. Tests on fixed values: the words of the encoding, the ill-formed terms the checks refuse, one step per instruction
against the vectors of spec 95_test_vectors (named T…, TD…, TK…, TF…, TX… and S… in the comments), and a witness for the
hypotheses of every statement. -/

namespace Sys2Proof.Tests

-- One theorem after another: elaborated side by side they do not fit the memory limit.
set_option Elab.async false

open Sys2Proof.Machine Sys2Proof.Safety

/-! ## Helpers -/

/-- `s` with the registers listed. -/
def regs (l : List (Reg × Byte)) (s : State) : State := l.foldl (fun t e => setReg e.1 e.2 t) s

/-- The start state of the spec's vectors: reset, the word at 0x200, the registers listed. -/
def start (w : Word) (l : List (Reg × Byte)) : State := regs l (placeWord w State.reset)

/-- The same with the word and PC at `a`. -/
def startAt (a w : Word) (l : List (Reg × Byte)) : State := regs l (placeWord w (setPc a State.reset))

/-- One step from `s` answers a next state that `p` holds of. -/
def goesTo (s : State) (p : State → Bool) : Bool :=
  match step s with
  | .next t => p t
  | .fault _ => false
  | .refused _ => false

/-- The framebuffer with exactly these pixels ON, as `(x, y)`. -/
def frameOn (l : List (Fin 64 × Fin 32)) : Frame := l.foldl (fun f e => putPixel f e.2 e.1 true) clearedFrame

/-- RUN is Faulted with this error and info. -/
def faultedWith (e : ErrorKind) (info : Word) (t : State) : Bool := t.run == .faulted e info

/-- Reset with these keys down. -/
def keysDown (l : List Key) (s : State) : State := l.foldl (fun t k => setKeys (t.keys.set k.val true) t) s

/-! ## Decoding: one word per constructor, its fields read off the encoding of R91 to R95 by hand -/

theorem test_decode_control : decode 0x00E0 = some .cls ∧ decode 0x00EE = some .ret ∧ decode 0x1ABC = some (.jp 0xABC) ∧
    decode 0x2FED = some (.call 0xFED) ∧ decode 0x3A2B = some (.seImm 0xA 0x2B) ∧
    decode 0x4B1C = some (.sneImm 0xB 0x1C) ∧ decode 0x5123 = some (.seReg 1 2 3) ∧
    decode 0x9EDC = some (.sneReg 0xE 0xD 0xC) ∧ decode 0xB123 = some (.jpV0 0x123) := by decide

theorem test_decode_alu : decode 0x8120 = some (.ldReg 1 2) ∧ decode 0x8231 = some (.orReg 2 3) ∧
    decode 0x8342 = some (.andReg 3 4) ∧ decode 0x8453 = some (.xorReg 4 5) ∧ decode 0x8564 = some (.addReg 5 6) ∧
    decode 0x8675 = some (.subReg 6 7) ∧ decode 0x8786 = some (.shr 7 8) ∧ decode 0x8897 = some (.subnReg 8 9) ∧
    decode 0x89AE = some (.shl 9 0xA) := by decide

theorem test_decode_immediate : decode 0x6A0F = some (.ldImm 0xA 0x0F) ∧ decode 0x7BF0 = some (.addImm 0xB 0xF0) ∧
    decode 0xA987 = some (.ldI 0x987) ∧ decode 0xC3A5 = some (.rnd 3 0xA5) := by decide

theorem test_decode_display_keys : decode 0xD12F = some (.drw 1 2 0xF) ∧ decode 0xE29E = some (.skp 2) ∧
    decode 0xEFA1 = some (.sknp 0xF) ∧ decode 0xF50A = some (.ldVxK 5) := by decide

theorem test_decode_timers : decode 0xF107 = some (.ldVxDt 1) ∧ decode 0xF215 = some (.ldDtVx 2) ∧
    decode 0xF318 = some (.ldStVx 3) ∧ decode 0xF41E = some (.addI 4) ∧ decode 0xF629 = some (.ldF 6) ∧
    decode 0xF733 = some (.ldB 7) ∧ decode 0xF855 = some (.ldMemVx 8) ∧ decode 0xF965 = some (.ldVxMem 9) := by decide

/-- R96, R98: words that no row selects (TX.1 to TX.4, T8.26, T8.27, TK.7, TF.22, TF.23). -/
theorem test_decode_invalid : decode 0x0000 = none ∧ decode 0x00E1 = none ∧ decode 0x0123 = none ∧ decode 0x00FF = none ∧
    decode 0x8128 = none ∧ decode 0x812F = none ∧ decode 0xE09F = none ∧ decode 0xF000 = none ∧
    decode 0xF075 = none := by decide

/-- R92, R62, S11: the byte at the lower address is the high half of the word. -/
theorem test_bytes_big_endian : decodeBytes [0x80, 0x14, 0x77] = .ok (.addReg 0 1, [0x77]) ∧
    encodeBytes (.jp 0xABC) = [0x1A, 0xBC] := by decide

/-! ## The checks refuse ill-formed terms -/

theorem test_wf_font_below_program : (Config.default.wf = true) ∧
    Config.fontBelowProgram { Config.default with fontBase := 0x1B1 } = false ∧
    Config.fontBelowProgram { Config.default with fontBase := 0x1B0 } = true := by decide

theorem test_wf_font_sized : Config.fontSized { Config.default with font := [0xF0, 0x90] } = false := by decide

/-- TX.5, TX.6: the longest image that fits, and one byte more. -/
theorem test_wf_rom : romFits (List.replicate 3584 0) = true ∧ romFits (List.replicate 3585 0) = false := by
  decide +kernel

theorem test_wf_words : wordListed 0x0000 = false ∧ wordListed 0x8128 = false ∧ wordListed 0xE09F = false ∧
    wordListed 0xF075 = false ∧ wordListed 0x5123 = true := by decide

theorem test_wf_memory : memWf Config.default [(0x300, 1), (0x300, 2)] = false ∧
    memWf Config.default [(0x300, 0)] = false ∧ memWf Config.default [(4096, 1)] = false ∧
    memWf Config.default [(0x050, 0xF0)] = false ∧ memWf Config.default [(0x050, 0), (0x300, 1)] = true := by decide

/-! ## Control transfer -/

/-- T4.1, T4.2, T4.21. -/
theorem test_jp : goesTo (start 0x1ABC []) (fun t => t.pc == 0xABC) = true ∧
    goesTo (start 0x1200 []) (fun t => t.pc == 0x200) = true ∧
    goesTo (startAt 0xFFE 0x1FFE []) (fun t => t.pc == 0xFFE && t.run == .running) = true := by decide +kernel

/-- T4.3, T4.4. -/
theorem test_call : goesTo (start 0x2ABC []) (fun t => t.pc == 0xABC && t.sp == 1 && t.stack.getD 0 0 == 0x202) = true ∧
    goesTo (setStack State.reset.stack 15 (startAt 0x400 0x2ABC []))
      (fun t => t.pc == 0xABC && t.sp == 16 && t.stack.getD 15 0 == 0x402 && t.run == .running) = true := by
  decide +kernel

/-- T4.5. -/
theorem test_call_full : goesTo (setStack State.reset.stack 16 (startAt 0x400 0x2ABC []))
    (fun t => faultedWith .stackOverflow 0 t && t.pc == 0x402 && t.sp == 16) = true := by decide +kernel

/-- T4.6, T4.7. -/
theorem test_ret : goesTo (setStack ([0x300, 0x302] ++ List.replicate 14 0) 2 (start 0x00EE []))
      (fun t => t.pc == 0x302 && t.sp == 1) = true ∧
    goesTo (start 0x00EE []) (fun t => faultedWith .stackUnderflow 0 t && t.pc == 0x202 && t.sp == 0) = true := by
  decide +kernel

/-- S9, T4.8, T4.9. -/
theorem test_jpV0 : goesTo (startAt 0x300 0xB400 [(0, 0x10)]) (fun t => t.pc == 0x410) = true ∧
    goesTo (start 0xBFFF [(0, 0xFF)]) (fun t => t.pc == 0x10FE && t.run == .running) = true ∧
    goesTo (start 0xB300 [(3, 0x77)]) (fun t => t.pc == 0x300) = true := by decide +kernel

/-- T4.10, T4.11, T4.19, T4.20. -/
theorem test_seImm : goesTo (start 0x3A00 []) (fun t => t.pc == 0x204) = true ∧
    goesTo (start 0x3A01 []) (fun t => t.pc == 0x202) = true ∧
    goesTo (start 0x3F01 [(vf, 1)]) (fun t => t.pc == 0x204) = true ∧
    goesTo (startAt 0xFFE 0x3000 []) (fun t => t.pc == 0x1002 && t.run == .running) = true := by decide +kernel

/-- T4.12, T4.13. -/
theorem test_sneImm : goesTo (start 0x4A00 []) (fun t => t.pc == 0x202) = true ∧
    goesTo (start 0x4A01 []) (fun t => t.pc == 0x204) = true := by decide +kernel

/-- T4.14, T4.15, T4.18. -/
theorem test_seReg : goesTo (start 0x5AB7 [(0xA, 9), (0xB, 9)]) (fun t => t.pc == 0x204) = true ∧
    goesTo (start 0x5AB0 [(0xA, 9), (0xB, 8)]) (fun t => t.pc == 0x202) = true ∧
    goesTo (start 0x5330 [(3, 0xEE)]) (fun t => t.pc == 0x204) = true := by decide +kernel

/-- T4.16, T4.17. -/
theorem test_sneReg : goesTo (start 0x9AB0 [(0xA, 9), (0xB, 9)]) (fun t => t.pc == 0x202) = true ∧
    goesTo (start 0x9ABF [(0xA, 9), (0xB, 8)]) (fun t => t.pc == 0x204) = true := by decide +kernel

/-- T4.22, and the second steps of T4.8 and T4.20. -/
theorem test_fetch_raises :
    goesTo (setPc 0xFFF State.reset) (fun t => faultedWith .memoryAccessOutOfRange 0x1000 t && t.pc == 0xFFF) = true ∧
    goesTo (setPc 0x10FE State.reset) (fun t => faultedWith .memoryAccessOutOfRange 0x10FE t && t.pc == 0x10FE) = true ∧
    goesTo (setPc 0x1002 State.reset) (fun t => faultedWith .memoryAccessOutOfRange 0x1002 t && t.pc == 0x1002) = true := by
  decide +kernel

/-- T4.23, T4.24. -/
theorem test_step_holds :
    goesTo (setRun (.waitingForKey 3) (start 0x1ABC [])) (fun t => t == setRun (.waitingForKey 3) (start 0x1ABC [])) = true ∧
    goesTo (setRun (.faulted .invalidOpcode 0) State.reset)
      (fun t => t == setRun (.faulted .invalidOpcode 0) State.reset) = true := by decide +kernel

/-- TX.1, T8.26, T8.27, TK.7, TF.22, TF.23: invalid words raise, the PC advanced. -/
theorem test_invalid_words :
    goesTo State.reset (fun t => faultedWith .invalidOpcode 0x0000 t && t.pc == 0x202) = true ∧
    goesTo (start 0x8128 [(1, 1), (2, 2)])
      (fun t => faultedWith .invalidOpcode 0x8128 t && t.pc == 0x202 && reg t 1 == 1) = true ∧
    goesTo (start 0xE09F []) (fun t => faultedWith .invalidOpcode 0xE09F t && t.pc == 0x202) = true ∧
    goesTo (start 0xF075 []) (fun t => faultedWith .invalidOpcode 0xF075 t && t.pc == 0x202) = true := by decide +kernel

/-! ## Immediates, index, random -/

/-- T41.1, T41.2. -/
theorem test_ldImm : goesTo (start 0x6AFF []) (fun t => reg t 0xA == 0xFF && t.pc == 0x202) = true ∧
    goesTo (start 0x6F07 []) (fun t => reg t vf == 7) = true := by decide +kernel

/-- T41.3, T41.5, T41.6. -/
theorem test_addImm : goesTo (start 0x7A01 [(0xA, 0xFF)]) (fun t => reg t 0xA == 0 && reg t vf == 0) = true ∧
    goesTo (start 0x7AFF []) (fun t => reg t 0xA == 0xFF && reg t vf == 0) = true ∧
    goesTo (start 0x7F80 [(vf, 0x80)]) (fun t => reg t vf == 0) = true := by decide +kernel

/-- T41.7, T41.8. -/
theorem test_ldI : goesTo (start 0xAFFF []) (fun t => t.i == 0xFFF) = true ∧
    goesTo (setI 0x1234 (start 0xA000 [])) (fun t => t.i == 0) = true := by decide +kernel

/-- T41.10, T41.11: mask 0 gives 0 whatever the draw. -/
theorem test_rnd_mask_zero (s : State) : ∃ t, exec (.rnd 1 0x00) s = .next t ∧ reg t 1 = 0 :=
  ⟨_, rfl, by simp [reg_setReg]⟩

/-- T41.12: mask 0xFF gives the draw itself. -/
theorem test_rnd_mask_ones (s : State) : ∃ t, exec (.rnd 1 0xFF) s = .next t ∧ reg t 1 = Config.draw8 s.draws :=
  ⟨_, rfl, by rw [reg_setReg, if_pos rfl]; exact BitVec.and_allOnes (x := Config.draw8 s.draws)⟩

/-! ## ALU -/

/-- T8.1. -/
theorem test_ldReg : goesTo (start 0x8120 [(1, 1), (2, 0xEE), (vf, 7)])
    (fun t => reg t 1 == 0xEE && reg t 2 == 0xEE && reg t vf == 7) = true := by decide +kernel

/-- T8.2. -/
theorem test_orReg : goesTo (start 0x8121 [(1, 0xA5), (2, 0x5A), (vf, 7)])
    (fun t => reg t 1 == 0xFF && reg t vf == 7) = true := by decide +kernel

/-- T8.3. -/
theorem test_andReg : goesTo (start 0x8122 [(1, 0xA5), (2, 0x0F), (vf, 7)])
    (fun t => reg t 1 == 0x05 && reg t vf == 7) = true := by decide +kernel

/-- T8.4, T8.25. -/
theorem test_xorReg : goesTo (start 0x8123 [(1, 0xA5), (2, 0xFF), (vf, 7)])
      (fun t => reg t 1 == 0x5A && reg t vf == 7) = true ∧
    goesTo (start 0x8113 [(1, 0x77)]) (fun t => reg t 1 == 0) = true := by decide +kernel

/-- S2, T8.5, T8.6, T8.7. -/
theorem test_addReg : goesTo (start 0x8014 [(0, 0xFF), (1, 1)]) (fun t => reg t 0 == 0 && reg t vf == 1) = true ∧
    goesTo (start 0x8124 [(1, 0x80), (2, 0x7F), (vf, 1)]) (fun t => reg t 1 == 0xFF && reg t vf == 0) = true ∧
    goesTo (start 0x8124 [(1, 0x80), (2, 0x80)]) (fun t => reg t 1 == 0 && reg t vf == 1) = true ∧
    goesTo (start 0x8124 [(1, 0xFF), (2, 0xFF)]) (fun t => reg t 1 == 0xFE && reg t vf == 1) = true := by decide +kernel

/-- T8.10, T8.11, T8.12: VF as destination keeps the flag, VF as source gives its old value. -/
theorem test_addReg_flag : goesTo (start 0x8FF4 [(vf, 0x80)]) (fun t => reg t vf == 1) = true ∧
    goesTo (start 0x8F14 [(vf, 0x10), (1, 0x20)]) (fun t => reg t vf == 0 && reg t 1 == 0x20) = true ∧
    goesTo (start 0x81F4 [(1, 0xFF), (vf, 1)]) (fun t => reg t 1 == 0 && reg t vf == 1) = true := by decide +kernel

/-- S3, T8.8, T8.9, T8.13, T8.24. -/
theorem test_subReg : goesTo (start 0x8015 [(0, 1), (1, 2)]) (fun t => reg t 0 == 0xFF && reg t vf == 0) = true ∧
    goesTo (start 0x8125 [(1, 0x10), (2, 0x10)]) (fun t => reg t 1 == 0 && reg t vf == 1) = true ∧
    goesTo (start 0x8125 [(2, 0xFF), (vf, 1)]) (fun t => reg t 1 == 1 && reg t vf == 0) = true ∧
    goesTo (start 0x8F15 [(vf, 5), (1, 3)]) (fun t => reg t vf == 1) = true ∧
    goesTo (start 0x8115 [(1, 0x77)]) (fun t => reg t 1 == 0 && reg t vf == 1) = true := by decide +kernel

/-- S4a, T8.14b, T8.17, T8.18. -/
theorem test_shr : goesTo (start 0x8006 [(0, 0x81)]) (fun t => reg t 0 == 0x40 && reg t vf == 1) = true ∧
    goesTo (start 0x8F06 [(vf, 6)]) (fun t => reg t vf == 0) = true ∧
    goesTo (start 0x8116 [(1, 1)]) (fun t => reg t 1 == 0 && reg t vf == 1) = true ∧
    goesTo (start 0x8126 [(1, 0xFE), (2, 1), (vf, 1)])
      (fun t => reg t 1 == 0x7F && reg t 2 == 1 && reg t vf == 0) = true := by decide +kernel

/-- T8.16, T8.21, T8.22, T8.23. -/
theorem test_subnReg : goesTo (start 0x8F17 [(vf, 5), (1, 3)]) (fun t => reg t vf == 0) = true ∧
    goesTo (start 0x8127 [(1, 0x10), (2, 0x10)]) (fun t => reg t 1 == 0 && reg t vf == 1) = true ∧
    goesTo (start 0x8127 [(1, 0x10), (2, 0x0F)])
      (fun t => reg t 1 == 0xFF && reg t 2 == 0x0F && reg t vf == 0) = true ∧
    goesTo (start 0x8127 [(1, 1), (2, 0xFF)]) (fun t => reg t 1 == 0xFE && reg t vf == 1) = true := by decide +kernel

/-- S4b, T8.15, T8.19, T8.20. -/
theorem test_shl : goesTo (start 0x800E [(0, 0x81)]) (fun t => reg t 0 == 0x02 && reg t vf == 1) = true ∧
    goesTo (start 0x8F0E [(vf, 0x80)]) (fun t => reg t vf == 1) = true ∧
    goesTo (start 0x812E [(1, 0x7F), (2, 0x80), (vf, 1)])
      (fun t => reg t 1 == 0xFE && reg t 2 == 0x80 && reg t vf == 0) = true ∧
    goesTo (start 0x811E [(1, 0xFF)]) (fun t => reg t 1 == 0xFE && reg t vf == 1) = true := by decide +kernel

/-! ## Display -/

/-- TD.9. -/
theorem test_cls : goesTo (setFb (frameOn [(0, 0), (63, 31)]) (start 0x00E0 [(vf, 1)]))
    (fun t => decide (t.fb = frameOn []) && reg t vf == 1) = true := by decide +kernel

/-- `start` with `I` at 0x300 and these bytes there. -/
def sprite (w : Word) (l : List (Reg × Byte)) (bytes : List Byte) : State :=
  storeBytes 0x300 bytes (setI 0x300 (start w l))

/-- TD.1, TD.2, TD.3, TD.4, TD.6, TD.8: origin, collision, no rows, the raise, VF as column, an empty row. -/
theorem test_drw :
    goesTo (sprite 0xD011 [(0, 70), (1, 33)] [0x80]) (fun t => decide (t.fb = frameOn [(6, 1)]) && reg t vf == 0) = true ∧
    goesTo (setFb (frameOn [(0, 0)]) (sprite 0xD011 [(vf, 1)] [0xC0]))
      (fun t => decide (t.fb = frameOn [(1, 0)]) && reg t vf == 1) = true ∧
    goesTo (setFb (frameOn [(5, 5)]) (setI 0x1000 (start 0xD010 [(vf, 1)])))
      (fun t => decide (t.fb = frameOn [(5, 5)]) && reg t vf == 0 && t.run == .running) = true ∧
    goesTo (setByte 0xFFF 0xFF (setI 0xFFF (start 0xD012 [(vf, 1)])))
      (fun t => faultedWith .memoryAccessOutOfRange 0x1000 t && decide (t.fb = frameOn []) && reg t vf == 1) = true ∧
    goesTo (sprite 0xDF11 [(vf, 5)] [0x80]) (fun t => decide (t.fb = frameOn [(5, 0)]) && reg t vf == 0) = true ∧
    goesTo (setFb (frameOn [(0, 0)]) (sprite 0xD011 [(vf, 1)] [0x00]))
      (fun t => decide (t.fb = frameOn [(0, 0)]) && reg t vf == 0) = true := by decide +kernel

/-- TD.5, TD.7, TD.11: wrapping rows and columns, the glyph A. -/
theorem test_drw_wraps :
    goesTo (sprite 0xD011 [(0, 60), (1, 31)] [0xFF]) (fun t => reg t vf == 0 &&
      decide (t.fb = frameOn [(60, 31), (61, 31), (62, 31), (63, 31), (0, 31), (1, 31), (2, 31), (3, 31)])) = true ∧
    goesTo (setI 0x082 (start 0xD015 [])) (fun t => reg t vf == 0 &&
      decide (t.fb = frameOn [(0, 0), (1, 0), (2, 0), (3, 0), (0, 1), (3, 1), (0, 2), (1, 2), (2, 2), (3, 2), (0, 3), (3, 3),
        (0, 4), (3, 4)])) = true ∧
    goesTo (sprite 0xD012 [(0, 255), (1, 255)] [0x81, 0x81]) (fun t => reg t vf == 0 &&
      decide (t.fb = frameOn [(63, 31), (6, 31), (63, 0), (6, 0)])) = true := by decide +kernel

/-- S6, TD.12: coordinates wrap, negative ones too; the answer says whether the pixel is now OFF. -/
theorem test_set_pixel : setPixel clearedFrame 64 0 = (frameOn [(0, 0)], false) ∧
    setPixel (frameOn [(0, 0)]) 0 0 = (frameOn [], true) ∧ setPixel clearedFrame (-1) 0 = (frameOn [(63, 0)], false) := by
  decide +kernel

/-! ## Keypad -/

/-- TK.1, TK.2, TK.5. -/
theorem test_skp : goesTo (keysDown [15] (start 0xE09E [(0, 0xF)])) (fun t => t.pc == 0x204) = true ∧
    goesTo (start 0xE09E [(0, 0xF)]) (fun t => t.pc == 0x202) = true ∧
    goesTo (start 0xE09E [(0, 16)]) (fun t => faultedWith .keyIndexOutOfRange 0x10 t && t.pc == 0x202) = true := by
  decide +kernel

/-- TK.3, TK.4, TK.6. -/
theorem test_sknp : goesTo (keysDown [0] (start 0xE0A1 [])) (fun t => t.pc == 0x202) = true ∧
    goesTo (start 0xE0A1 []) (fun t => t.pc == 0x204) = true ∧
    goesTo (start 0xE0A1 [(0, 0xFF)]) (fun t => faultedWith .keyIndexOutOfRange 0xFF t && t.pc == 0x202) = true := by
  decide +kernel

/-- TK.8: a key already down does not satisfy the wait. -/
theorem test_ldVxK : goesTo (keysDown [1] (start 0xFA0A [(0xA, 0x33)]))
    (fun t => t.run == .waitingForKey 0xA && t.pc == 0x202 && reg t 0xA == 0x33) = true := by decide +kernel

/-- A core waiting for a key to put into VA, key 1 down: the state TK.8 leaves. -/
def waiting : State := setRun (.waitingForKey 0xA) (keysDown [1] State.reset)

/-- TK.9 to TK.12. -/
theorem test_key_set : keySet 1 true waiting = waiting ∧ (keySet 1 false waiting).run = .waitingForKey 0xA ∧
    (keySet 1 true (keySet 1 false waiting)).run = .running ∧
    reg (keySet 1 true (keySet 1 false waiting)) 0xA = 1 ∧
    keySet 4 true State.reset = keysDown [4] State.reset := by decide +kernel

/-! ## Timers, index, memory -/

/-- TF.1. -/
theorem test_ldVxDt : goesTo (setDt 0xFF (start 0xF007 [])) (fun t => reg t 0 == 0xFF && t.dt == 0xFF) = true := by
  decide +kernel

/-- TF.2. -/
theorem test_ldDtVx : goesTo (start 0xF015 [(0, 0xFF)]) (fun t => t.dt == 0xFF && t.st == 0) = true := by decide +kernel

/-- TF.3. -/
theorem test_ldStVx : goesTo (start 0xF018 [(0, 2)]) (fun t => t.st == 2 && t.dt == 0) = true := by decide +kernel

/-- TF.4, TF.5. -/
theorem test_addI : goesTo (setI 0xFFF (start 0xF11E [(1, 1)]))
      (fun t => t.i == 0x1000 && reg t vf == 0 && t.run == .running) = true ∧
    goesTo (setI 0xFFFF (start 0xF11E [(1, 2)])) (fun t => t.i == 1 && reg t vf == 0) = true := by decide +kernel

/-- TF.7 to TF.10. -/
theorem test_ldF : goesTo (start 0xF029 []) (fun t => t.i == 0x50) = true ∧
    goesTo (start 0xF029 [(0, 0xF)]) (fun t => t.i == 0x9B) = true ∧
    goesTo (start 0xF029 [(0, 0x10)]) (fun t => t.i == 0xA0) = true ∧
    goesTo (start 0xF029 [(0, 0xFF)]) (fun t => t.i == 0x54B) = true := by decide +kernel

/-- TF.11, TF.12. -/
theorem test_ldB : goesTo (sprite 0xF033 [] [9, 9, 9]) (fun t => loadBytes t 0x300 3 == [0, 0, 0]) = true ∧
    goesTo (setI 0x300 (start 0xF033 [(0, 255)])) (fun t => loadBytes t 0x300 3 == [2, 5, 5] && t.i == 0x300) = true := by
  decide +kernel

/-- TF.13, TF.14: the highest I that fits, and the next one. -/
theorem test_ldB_edge : goesTo (setI 0xFFD (start 0xF033 [(0, 109)]))
      (fun t => loadBytes t 0xFFD 3 == [1, 0, 9] && t.run == .running) = true ∧
    goesTo (setI 0xFFE (start 0xF033 [(0, 109)])) (fun t => faultedWith .memoryAccessOutOfRange 0x1000 t &&
      loadBytes t 0xFFE 2 == [0, 0] && t.pc == 0x202) = true := by decide +kernel

/-- TF.15, TF.21. -/
theorem test_ldMemVx : goesTo (setI 0x300 (start 0xF055 [(0, 0xAA), (1, 0xBB)]))
      (fun t => loadBytes t 0x300 2 == [0xAA, 0] && t.i == 0x300) = true ∧
    goesTo (setI 0x050 (start 0xF055 [(0, 0xAB)])) (fun t => byteAt t 0x050 == 0xAB) = true := by decide +kernel

/-- The registers of TF.16. -/
def sixteen (s : State) : State := setV (Vector.ofFn fun j => BitVec.ofNat 8 (0x10 + j.val)) s

/-- TF.16, TF.17. -/
theorem test_ldMemVx_edge : goesTo (setI 0xFF0 (sixteen (start 0xFF55 []))) (fun t => t.run == .running &&
      loadBytes t 0xFF0 16 == (List.range 16).map (fun j => BitVec.ofNat 8 (0x10 + j)) && t.i == 0xFF0) = true ∧
    goesTo (setI 0xFF1 (sixteen (start 0xFF55 []))) (fun t => faultedWith .memoryAccessOutOfRange 0x1000 t &&
      loadBytes t 0xFF1 15 == List.replicate 15 0) = true := by decide +kernel

/-- TF.18, TF.20. -/
theorem test_ldVxMem : goesTo (sprite 0xF165 [(2, 0x77)] [1, 2, 3])
      (fun t => reg t 0 == 1 && reg t 1 == 2 && reg t 2 == 0x77 && t.i == 0x300) = true ∧
    goesTo (setI 0x1000 (start 0xF065 [(0, 5)]))
      (fun t => faultedWith .memoryAccessOutOfRange 0x1000 t && reg t 0 == 5) = true := by decide +kernel

/-- TF.19: the first bytes of the font, VF loaded as data. -/
theorem test_ldVxMem_font : goesTo (setI 0x050 (start 0xFF65 [])) (fun t => reg t 0 == 0xF0 && reg t 1 == 0x90 &&
    reg t 4 == 0xF0 && reg t 5 == 0x20 && reg t vf == 0xF0) = true := by decide +kernel

/-- TF.24, TF.25, TF.26. -/
theorem test_tick : (tick (setDt 1 State.reset)).dt = 0 ∧ (tick (setDt 1 State.reset)).st = 0 ∧
    (tick (setSt 255 State.reset)).st = 254 ∧ (tick (setDt 2 waiting)).dt = 1 := by decide +kernel

/-! ## Reset and ROM load -/

/-- TX.8. -/
theorem test_reset : loadBytes State.reset 0x050 5 = [0xF0, 0x90, 0x90, 0x90, 0xF0] ∧
    loadBytes State.reset 0x09B 5 = [0xF0, 0x80, 0xF0, 0x80, 0x80] ∧ byteAt State.reset 0x04F = 0 ∧
    byteAt State.reset 0x0A0 = 0 ∧ State.reset.pc = 0x200 ∧ resetFrom waiting = State.reset := by decide +kernel

/-- TX.6, TX.7, and the first word of an image is the first word fetched (R77). -/
theorem test_load_rom : (loadRom (List.replicate 3585 1) State.reset) = raise .romTooLarge 3585 State.reset ∧
    loadRom [] State.reset = State.reset ∧ fetchWord (loadRom [0x60, 0x9C] State.reset) = .ok 0x609C := by decide +kernel

/-- R269: one frame of the driver runs the pending key event, two steps and a tick. -/
theorem test_driver_frame : (match operateAll (driverFrame 2 [(1, true)])
      { core := setDt 5 (loadRom [0x60, 0x9C, 0x12, 0x02] State.reset), phase := .loaded } with
    | .next d => reg d.core 0 == 0x9C && d.core.pc == 0x202 && d.core.dt == 4 && d.core.keys[1]
    | .fault _ => false
    | .refused _ => false) = true := by decide +kernel

/-- R262, TX.1: a step with no ROM raises InvalidOpcode(0x0000); a load_rom after it, or after another load_rom, is
refused; so is anything before the first reset. -/
theorem test_boot_sequence : (match operateAll [.step] Session.booted with
      | .next d => faultedWith .invalidOpcode 0x0000 d.core
      | .fault _ => false
      | .refused _ => false) = true ∧
    (operateAll [.step, .loadRom [0x12, 0x00]] Session.booted matches .refused .outsideBootOrder) = true ∧
    (operateAll [.loadRom [0x12, 0x00], .tick, .loadRom []] Session.booted matches .refused .outsideBootOrder) = true ∧
    (operateAll [.snapshot] { core := State.reset, phase := .off } matches .refused .outsideBootOrder) = true := by
  decide +kernel

/-- The word of the opcode table's row 3xkk with kk = 0, placed where the next step fetches, runs as its first
instruction. -/
theorem test_placed_word : decodeTableWord 16 0x3A00 = some (.seImm 0xA 0x00) ∧
    goesTo (State.reset.withFetchWord 16 0x3A00) (fun t => t.pc == 0x204) = true := by decide +kernel

/-! ## Witnesses: concrete states and operands that meet the hypotheses of each statement, at the boundaries of its clauses -/

/-- Inside a subroutine at 0x300 that is about to return to 0x202. -/
def inSub : State := setStack (State.reset.stack.set 0 0x202) 1 (startAt 0x300 0x00EE [])

/-- `n` calls deep, every entry 0x202, an array of 16. -/
def deep (n : Nat) : State := setStack (List.replicate n 0x202 ++ List.replicate (16 - n) 0) n State.reset

/-- Live entries checked one by one. -/
theorem live_of_all {l : List Word} (h : l.all (fun a => decide (2 ≤ a.toNat ∧ a.toNat ≤ 0x1000)) = true) :
    ∀ a ∈ l, 2 ≤ a.toNat ∧ a.toNat ≤ 0x1000 := fun a ha => of_decide_eq_true (List.all_eq_true.1 h a ha)

theorem inSub_inv : CoreInv inSub :=
  ⟨by decide +kernel, by decide +kernel, by decide +kernel, by decide +kernel, live_of_all (by decide +kernel),
   by decide +kernel, by decide +kernel⟩

theorem deep_inv : CoreInv (deep 16) ∧ CoreInv (deep 15) :=
  ⟨⟨by decide +kernel, by decide +kernel, by decide +kernel, by decide +kernel, live_of_all (by decide +kernel),
   by decide +kernel, by decide +kernel⟩,
   ⟨by decide +kernel, by decide +kernel, by decide +kernel, by decide +kernel, live_of_all (by decide +kernel),
   by decide +kernel, by decide +kernel⟩⟩

theorem witness_EncodeOfDecode : decode 0x8127 = some (.subnReg 1 2) := by decide +kernel

theorem witness_OpcodeRowsDisjoint : (⟨"8xy4", 0xF00F, 0x8004⟩ : OpcodeRow) ∈ opcodeRows ∧
    (⟨"8xy4", 0xF00F, 0x8004⟩ : OpcodeRow).selects 0x8014 = true := by decide +kernel

theorem witness_StepRunsDecodedInstruction : (startAt 0xFFE 0x8014 []).run = .running ∧
    (startAt 0xFFE 0x8014 []).pc.toNat ≤ 4094 ∧
    decode (wordOfBytes (byteAt (startAt 0xFFE 0x8014 []) (startAt 0xFFE 0x8014 []).pc.toNat)
      (byteAt (startAt 0xFFE 0x8014 []) ((startAt 0xFFE 0x8014 []).pc.toNat + 1))) = some (.addReg 0 1) := by
  decide +kernel

theorem witness_FetchAboveMemoryRaises : (setPc 0xFFF State.reset).run = .running ∧
    4094 < (setPc 0xFFF State.reset).pc.toNat := by decide +kernel

theorem witness_UnlistedWordRaises : State.reset.run = .running ∧ State.reset.pc.toNat ≤ 4094 ∧
    (0x0000 : Word) = wordOfBytes (byteAt State.reset State.reset.pc.toNat)
      (byteAt State.reset (State.reset.pc.toNat + 1)) ∧ wordListed 0x0000 = false := by decide +kernel

theorem witness_StepHoldsUnlessRunning : waiting.run ≠ .running ∧
    (raise .invalidOpcode 0 State.reset).run ≠ .running := by decide +kernel

theorem witness_FaultedIsSticky : (raise .invalidOpcode 0 State.reset).run = .faulted .invalidOpcode 0 ∧
    BootPhase.loaded ≠ .off ∧ ∀ op ∈ [Operation.step, .tick, .snapshot, .keySet 1 true],
      op = .step ∨ op = .tick ∨ op = .snapshot ∨ ∃ k b, op = .keySet k b := by
  refine ⟨by decide, by decide, fun op h => ?_⟩
  simp only [List.mem_cons, List.not_mem_nil, or_false] at h
  rcases h with rfl | rfl | rfl | rfl
  · exact .inl rfl
  · exact .inr (.inl rfl)
  · exact .inr (.inr (.inl rfl))
  · exact .inr (.inr (.inr ⟨_, _, rfl⟩))

theorem witness_PlacedWordRuns : memWf State.reset.cfg State.reset.mem = true ∧
    decodeTableWord 16 0x3A00 = some (.seImm 0xA 0x00) := by decide +kernel

theorem witness_ReturnPopsStack : State.reset.sp = 0 ∧ 0 < inSub.sp ∧ inSub.sp ≤ inSub.stack.length ∧
    0 < (deep 16).sp ∧ (deep 16).sp ≤ (deep 16).stack.length := by decide +kernel

theorem witness_CallPushesPc : (deep 16).stack.length = (deep 16).cfg.stackDepth ∧
    (deep 16).sp = (deep 16).cfg.stackDepth ∧ (deep 15).stack.length = (deep 15).cfg.stackDepth ∧
    (deep 15).sp < (deep 15).cfg.stackDepth := by decide +kernel

theorem witness_CallThenReturn : (deep 15).stack.length = (deep 15).cfg.stackDepth ∧
    (deep 15).sp < (deep 15).cfg.stackDepth := by decide +kernel

theorem witness_SelfJumpChangesNothing : (start 0x1200 []).run = .running ∧ (start 0x1200 []).pc.toNat ≤ 4094 ∧
    (start 0x1200 []).pc.toNat = (0x200 : Addr).toNat ∧
    wordOfBytes (byteAt (start 0x1200 []) (start 0x1200 []).pc.toNat)
      (byteAt (start 0x1200 []) ((start 0x1200 []).pc.toNat + 1)) = encode (.jp 0x200) := by decide +kernel

/-- Both kinds of destination: a register that is not VF, where the result stays, and VF. -/
theorem witness_AddSubWriteFlagLast : (1 : Reg) ≠ vf ∧ (0xF : Reg) = vf ∧ (2 : Reg) ≠ 1 ∧ (2 : Reg) ≠ vf := by decide +kernel

theorem witness_ShiftsWriteFlagLast : (0xE : Reg) ≠ vf ∧ (0xF : Reg) = vf ∧ (0 : Reg) ≠ 0xE ∧ (0 : Reg) ≠ vf := by
  decide +kernel

/-- A pixel that set_pixel(64, -1) toggles, and one that it leaves. -/
theorem witness_SetPixelTogglesOne : ((((0 : Fin 64).val : Int) = 64 % 64) ∧ (((31 : Fin 32).val : Int) = (-1) % 32)) ∧
    ¬((((63 : Fin 64).val : Int) = 64 % 64) ∧ (((31 : Fin 32).val : Int) = (-1) % 32)) := by decide +kernel

/-- No rows at an address beyond memory, and fifteen rows that end at the last byte. -/
theorem witness_DrawXorsWrappedMask : (0 : Nibble).toNat = 0 ∧
    (setI 4081 State.reset).i.toNat + (15 : Nibble).toNat ≤ 4096 := by decide +kernel

theorem witness_DrawTwiceRestores : (0 : Reg) ≠ vf ∧ (1 : Reg) ≠ vf ∧
    (setI 4091 State.reset).i.toNat + (5 : Nibble).toNat ≤ 4096 ∧
    ∀ py px, pixelAt (setI 4091 State.reset).fb py px = false := by decide +kernel

theorem witness_DrawPastMemoryRaises : 0 < (2 : Nibble).toNat ∧
    4096 < (setI 4095 State.reset).i.toNat + (2 : Nibble).toNat ∧ 0 < (1 : Nibble).toNat ∧
    4096 < (setI 0xFFFF State.reset).i.toNat + (1 : Nibble).toNat := by decide +kernel

theorem witness_KeySkips : (reg (regs [(0, 15)] State.reset) 0).toNat = (15 : Key).val ∧
    15 < (reg (regs [(0, 16)] State.reset) 0).toNat := by decide +kernel

theorem witness_KeyWait : (keysDown [1] State.reset).keys[(1 : Key)] = true ∧
    (keysDown [1] State.reset).keys[(4 : Key)] = false ∧ (0 : Reg) ≠ 0xA := by decide +kernel

theorem witness_KeySetRecordsAndWakes : waiting.keys[(4 : Key)] = false ∧ waiting.run = .waitingForKey 0xA ∧
    waiting.keys[(1 : Key)] = true ∧
    ¬(true = true ∧ waiting.keys[(1 : Key)] = false ∧ ∃ r, waiting.run = .waitingForKey r) := by
  refine ⟨by decide +kernel, by decide +kernel, by decide +kernel, fun h => ?_⟩
  exact absurd h.2.1 (by decide +kernel)

/-- A state about to execute F029 for the digit F, its two bytes listed in memory, with the cells on both sides of the
glyph changed too. -/
theorem witness_FontPointer :
    let s := setByte 0x0A0 1 (setByte 0x09A 1 (start 0xF029 [(0, 15)]))
    s.cfg.wf = true ∧ (reg s 0).toNat ≤ 15 ∧ s.mem ≠ [] ∧
    ∀ row, row < 5 → byteAt s (0x09B + row) = byteAt (resetFrom s) (0x09B + row) := by
  decide +kernel

theorem witness_BcdStoresDigits : memWf (setI 4093 State.reset).cfg (setI 4093 State.reset).mem = true ∧
    (setI 4093 State.reset).i.toNat ≤ 4093 ∧ memWf (setI 4094 State.reset).cfg (setI 4094 State.reset).mem = true ∧
    4093 < (setI 4094 State.reset).i.toNat := by decide +kernel

theorem witness_BlockStore : memWf (setI 4080 State.reset).cfg (setI 4080 State.reset).mem = true ∧
    (setI 4080 State.reset).i.toNat + (15 : Reg).val ≤ 4095 ∧
    memWf (setI 4081 State.reset).cfg (setI 4081 State.reset).mem = true ∧
    4095 < (setI 4081 State.reset).i.toNat + (15 : Reg).val := by decide +kernel

theorem witness_BlockLoad : (setI 4095 State.reset).i.toNat + (0 : Reg).val ≤ 4095 ∧
    4095 < (setI 4096 State.reset).i.toNat + (0 : Reg).val := by decide +kernel

theorem witness_AccessesAreChecked : memWf inSub.cfg inSub.mem = true ∧ (4095 : Nat) < 4096 ∧ (4095 : Nat) ≤ 4095 := by
  decide +kernel

theorem witness_EqualReadsEqualMemory : memWf Config.default [(0x050, 0), (0x300, 1)] = true ∧
    ∀ a, lookupCell (background Config.default a) a [(0x050, 0), (0x300, 1)] =
      lookupCell (background Config.default a) a [(0x050, 0), (0x300, 1)] := ⟨by decide +kernel, fun _ => rfl⟩

/-- `I` and `PC` at the given addresses, running. -/
def aimed (i pc : Word) : State := setI i (setPc pc State.reset)

/-- Stores that cover both bytes at PC, the first alone (by the last byte stored), the second alone (by the first byte
stored), and neither; and the highest I of each instruction. -/
theorem witness_StoreIsFetched : (∀ s ∈ [aimed 0x300 0x300, aimed 0x300 0x30F, aimed 0x301 0x300, aimed 0x300 0x400,
      aimed 0xFF0 0xFFE, aimed 0xFFD 0xFFE],
      memWf s.cfg s.mem = true ∧ s.pc.toNat ≤ 4094) ∧
    (aimed 0xFF0 0xFFE).i.toNat + (15 : Reg).val ≤ 4095 ∧ (aimed 0x300 0x30F).i.toNat + (15 : Reg).val = 0x30F ∧
    (aimed 0xFFD 0xFFE).i.toNat ≤ 4093 := by
  refine ⟨fun s h => ?_, by decide +kernel, by decide +kernel, by decide +kernel⟩
  simp only [List.mem_cons, List.not_mem_nil, or_false] at h
  rcases h with rfl | rfl | rfl | rfl | rfl | rfl <;> exact ⟨by decide +kernel, by decide +kernel⟩

theorem witness_RomImageIsLoaded : (List.replicate 3584 (0 : Byte)).length ≤ 3584 ∧
    3584 < (List.replicate 3585 (0 : Byte)).length ∧ ([0x60, 0x9C] : List Byte) = 0x60 :: 0x9C :: [] := by
  decide +kernel

theorem witness_ResetLeaves : waiting.cfg.wf = true := by decide +kernel

theorem witness_ChangesOnlyListedParts : exec (.ldImm 1 2) State.reset = .next (setReg 1 2 State.reset) := rfl

theorem witness_OtherRegistersUnchanged : exec (.ldImm 1 2) State.reset = .next (setReg 1 2 State.reset) ∧
    writesReg (.ldImm 1 2) 2 = false := ⟨rfl, by decide +kernel⟩

theorem witness_FlagIsZeroOrOne : setsFlag (.addReg 0 1) = true ∧ Unhindered (.addReg 0 1) State.reset ∧
    setsFlag (.drw 0 1 15) = true ∧ Unhindered (.drw 0 1 15) (setI 4081 State.reset) :=
  ⟨rfl, trivial, rfl, .inr (by decide +kernel)⟩

/-- For each instruction that has a condition, a state at its boundary; the other instructions have none. -/
theorem witness_UnhinderedRunsToEffect : Unhindered .ret inSub ∧ Unhindered (.call 0x300) (deep 15) ∧
    Unhindered (.drw 0 1 0) (setI 0x1000 State.reset) ∧ Unhindered (.drw 0 1 15) (setI 4081 State.reset) ∧
    Unhindered (.ldB 0) (setI 4093 State.reset) ∧ Unhindered (.ldMemVx 15) (setI 4080 State.reset) ∧
    Unhindered (.ldVxMem 15) (setI 4080 State.reset) ∧ Unhindered (.skp 0) (regs [(0, 15)] State.reset) ∧
    Unhindered (.sknp 0) (regs [(0, 15)] State.reset) ∧ Unhindered .cls State.reset ∧
    inSub.run = .running ∧ (deep 15).run = .running ∧ (setI 4080 State.reset).run = .running ∧
    (regs [(0, 15)] State.reset).run = .running := by
  refine ⟨?_, ?_, .inl rfl, .inr ?_, ?_, ?_, ?_, ?_, ?_, trivial, ?_, ?_, ?_, ?_⟩ <;>
    (try simp only [Unhindered]) <;> decide +kernel

theorem index4094_inv : CoreInv (setI 4094 State.reset) :=
  ⟨by decide +kernel, by decide +kernel, by decide +kernel, by decide +kernel, live_of_all (by decide +kernel),
   by decide +kernel, by decide +kernel⟩

theorem v16_inv : CoreInv (regs [(0, 16)] State.reset) :=
  ⟨by decide +kernel, by decide +kernel, by decide +kernel, by decide +kernel, live_of_all (by decide +kernel),
   by decide +kernel, by decide +kernel⟩

theorem witness_HinderedRaises : (CoreInv (setI 4094 State.reset) ∧ ¬Unhindered .ret (setI 4094 State.reset)) ∧
    (CoreInv (deep 16) ∧ ¬Unhindered (.call 0x300) (deep 16)) ∧
    (CoreInv (setI 4094 State.reset) ∧ ¬Unhindered (.ldB 0) (setI 4094 State.reset)) ∧
    (CoreInv (regs [(0, 16)] State.reset) ∧ ¬Unhindered (.skp 0) (regs [(0, 16)] State.reset)) :=
  ⟨⟨index4094_inv, fun h => absurd h.1 (by decide +kernel)⟩, ⟨deep_inv.1, fun h => absurd h.1 (by decide +kernel)⟩,
   ⟨index4094_inv, fun h => absurd (show 4094 + 3 ≤ 4096 from h) (by decide)⟩,
   ⟨v16_inv, fun h => absurd (show 16 ≤ 15 from h) (by decide)⟩⟩

/-- The fault clause has a state too: SP outside the stack array. -/
theorem witness_SoundTimerIsNeverRead : (∀ x, Instr.cls ≠ .ldStVx x) ∧
    exec .cls State.reset = .next (setFb clearedFrame State.reset) ∧ (∀ x, Instr.ret ≠ .ldStVx x) ∧
    exec .ret (setStack [] 1 State.reset) = .fault .stackEntryMissing :=
  ⟨(fun _ h => by cases h), rfl, (fun _ h => by cases h), rfl⟩

theorem witness_StepKeepsInvariant : CoreInv inSub ∧ goesTo inSub (fun _ => true) = true :=
  ⟨inSub_inv, by decide +kernel⟩

theorem witness_StepAnswersNext : CoreInv inSub := inSub_inv

theorem witness_OperationsKeepInvariant : CoreInv (deep 16) ∧
    bootAllows .loaded [.step, .tick, .keySet 1 true, .snapshot, .reset, .tick, .loadRom [0x12, 0x00]] = true ∧
    bootAllows .loaded [.loadRom []] = false ∧ bootAllows .off [.tick] = false ∧
    bootAllows .fresh [.step, .loadRom []] = false :=
  ⟨deep_inv.1, by decide +kernel, by decide +kernel, by decide +kernel, by decide +kernel⟩

theorem witness_TicksCountDown : BootPhase.fresh ≠ .off ∧ BootPhase.loaded ≠ .off := by decide

/-- An image that fits exactly, from any phase, with a second reset and load among the later operations. -/
theorem witness_BootOrderLoadsRom : State.reset.cfg.wf = true ∧
    bootOrder .off (.reset :: .loadRom (List.replicate 3584 0) :: [.step, .tick]) = true ∧
    bootOrder .stepped (.reset :: .loadRom [0x12, 0x00] :: [.step, .keySet 1 true, .reset, .loadRom []]) = true := by
  decide +kernel

/-- Both kinds of operation after which a load_rom comes too late, with a session each leads to. -/
theorem witness_LateLoadRomIsRefused :
    (∃ d, operateAll [.step, .tick] Session.booted = .next d) ∧ Operation.reset ∉ [Operation.tick] ∧
    (∃ d, operateAll [.loadRom [0x12, 0x00], .snapshot] Session.booted = .next d) ∧
    Operation.reset ∉ [Operation.snapshot] ∧
    ({ core := State.reset, phase := .off } : Session).phase = .off ∧ Operation.step ≠ .reset :=
  ⟨⟨_, rfl⟩, by decide, ⟨_, rfl⟩, by decide, rfl, by decide⟩

end Sys2Proof.Tests
end

/-! PROOFS. Spec 20_memory: single-byte accesses (R65, R66). -/

namespace Sys2Proof.Safety

open Sys2Proof.Machine

theorem byteAt_setByte_same {s : State} (a : Nat) (b : Byte) (hm : rising s.mem = true) :
    byteAt (setByte a b s) a = b := by
  rw [byteAt_setByte hm, if_pos rfl]

theorem byteAt_setByte_of_ne {s : State} {a k : Nat} (b : Byte) (hm : rising s.mem = true) (hk : k ≠ a) :
    byteAt (setByte a b s) k = byteAt s k := by
  rw [byteAt_setByte hm, if_neg hk]

theorem changesOnly_setByte (a : Nat) (b : Byte) (s : State) : ChangesOnly [.mem] s (setByte a b s) :=
  changesOnly_setMem _ s

/-- Settles O39: the bound decides between the error and the cell, and below it the frame of one `setByte` in a rising
list of cells is the frame of the write. -/
theorem accessesAreChecked : Obligations.AccessesAreChecked := by
  intro a b s hwf
  have hm : rising s.mem = true := rising_of_memWf hwf
  constructor
  · intro hbad
    exact ⟨memRead_error hbad, memWrite_error hbad⟩
  · intro hok
    have hread : memRead (setByte a b s) a = .ok b := by
      rw [memRead_ok hok, byteAt_setByte_same a b hm]
    exact ⟨memRead_ok hok, setByte a b s, memWrite_ok hok, hread,
      fun _ hk => byteAt_setByte_of_ne b hm hk, changesOnly_setByte a b s⟩

end Sys2Proof.Safety

/-! PROOFS. Spec 40_step_control_flow: the jumps (R123, R124) and the compares (R126 to R129, R131). -/

namespace Sys2Proof.Machine

theorem exec_jp (nnn : Addr) (s : State) : exec (.jp nnn) s = .next (setPc (addrOperand nnn) s) := rfl
theorem exec_jpV0 (nnn : Addr) (s : State) : exec (.jpV0 nnn) s = .next (setPc (offsetTarget nnn (reg s 0)) s) := rfl

theorem exec_seImm (x : Reg) (kk : Byte) (s : State) :
    exec (.seImm x kk) s = .next (skipIf (reg s x == kk) s) := rfl
theorem exec_sneImm (x : Reg) (kk : Byte) (s : State) :
    exec (.sneImm x kk) s = .next (skipIf (reg s x != kk) s) := rfl
theorem exec_seReg (x y : Reg) (n : Nibble) (s : State) :
    exec (.seReg x y n) s = .next (skipIf (reg s x == reg s y) s) := rfl
theorem exec_sneReg (x y : Reg) (n : Nibble) (s : State) :
    exec (.sneReg x y n) s = .next (skipIf (reg s x != reg s y) s) := rfl

theorem skipIf_pc (c : Bool) (s : State) : (skipIf c s).pc = if c then s.pc + 2 else s.pc := by
  rw [skipIf_eq, setPc_pc]

theorem skipIf_beq_pc (a b : Byte) (s : State) :
    (skipIf (a == b) s).pc = if a = b then s.pc + 2 else s.pc := by
  rw [skipIf_pc]
  by_cases h : a = b <;> simp [h]

theorem skipIf_bne_pc (a b : Byte) (s : State) :
    (skipIf (a != b) s).pc = if a = b then s.pc else s.pc + 2 := by
  rw [skipIf_pc]
  by_cases h : a = b <;> simp [h]

end Sys2Proof.Machine

namespace Sys2Proof.Safety

open Sys2Proof.Machine

/-- Settles O15: each jump is one `setPc`, whose target keeps the value of `nnn`, or of the sum `nnn + V0`, in 16 bits. -/
theorem jumpsSetPc : Obligations.JumpsSetPc := by
  intro nnn s
  constructor
  · exact ⟨_, exec_jp nnn s, addrOperand_toNat nnn, changesOnly_setPc _ s⟩
  · exact ⟨_, exec_jpV0 nnn s, offsetTarget_toNat nnn (reg s 0), changesOnly_setPc _ s⟩

/-- Settles O16: each compare is one `skipIf` on an equality test or its negation, and no arm reads the nibble `n`. -/
theorem comparesSkip : Obligations.ComparesSkip := by
  intro x y kk n s
  refine ⟨?seImm, ?sneImm, ?seReg, ?sneReg⟩
  case seImm => exact ⟨_, exec_seImm x kk s, skipIf_beq_pc _ _ s, changesOnly_skipIf _ s⟩
  case sneImm => exact ⟨_, exec_sneImm x kk s, skipIf_bne_pc _ _ s, changesOnly_skipIf _ s⟩
  case seReg => exact ⟨_, exec_seReg x y n s, skipIf_beq_pc _ _ s, changesOnly_skipIf _ s⟩
  case sneReg => exact ⟨_, exec_sneReg x y n s, skipIf_bne_pc _ _ s, changesOnly_skipIf _ s⟩

end Sys2Proof.Safety

/-! PROOFS. Spec 41_immediate_index_random and 42_alu: the instructions that write one register and no flag (R140, R141,
R151 to R154), and the index load (R142). -/

namespace Sys2Proof.Machine

theorem exec_ldImm (x : Reg) (kk : Byte) (s : State) : exec (.ldImm x kk) s = .next (setReg x kk s) := rfl
theorem exec_addImm (x : Reg) (kk : Byte) (s : State) :
    exec (.addImm x kk) s = .next (setReg x (addResult (reg s x) kk) s) := rfl
theorem exec_ldReg (x y : Reg) (s : State) : exec (.ldReg x y) s = .next (setReg x (reg s y) s) := rfl
theorem exec_orReg (x y : Reg) (s : State) : exec (.orReg x y) s = .next (setReg x (reg s x ||| reg s y) s) := rfl
theorem exec_andReg (x y : Reg) (s : State) : exec (.andReg x y) s = .next (setReg x (reg s x &&& reg s y) s) := rfl
theorem exec_xorReg (x y : Reg) (s : State) : exec (.xorReg x y) s = .next (setReg x (reg s x ^^^ reg s y) s) := rfl
theorem exec_ldI (nnn : Addr) (s : State) : exec (.ldI nnn) s = .next (setI (addrOperand nnn) s) := rfl

theorem reg_setReg_same (x : Reg) (b : Byte) (s : State) : reg (setReg x b s) x = b := by
  rw [reg_setReg, if_pos rfl]

theorem reg_setReg_of_ne {x j : Reg} (b : Byte) (s : State) (hj : j ≠ x) : reg (setReg x b s) j = reg s j := by
  rw [reg_setReg, if_neg hj]

end Sys2Proof.Machine

namespace Sys2Proof.Safety

open Sys2Proof.Machine

/-- The frame of a single register write: the other registers, VF among them, and everything but V. -/
theorem setReg_frame (x : Reg) (b : Byte) (s : State) :
    (∀ j, j ≠ x → reg (setReg x b s) j = reg s j) ∧ ChangesOnly [.v] s (setReg x b s) :=
  ⟨fun _ hj => reg_setReg_of_ne b s hj, changesOnly_setReg x b s⟩

/-- Settles O19: each of the six is one `setReg` of `x`, so they share the frame of a register write and differ in the
byte written. -/
theorem plainRegisterResults : Obligations.PlainRegisterResults := by
  intro x y kk s
  refine ⟨⟨_, exec_ldImm x kk s, ?ldImm, setReg_frame x _ s⟩, ⟨_, exec_addImm x kk s, ?addImm, setReg_frame x _ s⟩,
    ⟨_, exec_ldReg x y s, ?ldReg, setReg_frame x _ s⟩, ⟨_, exec_orReg x y s, ?orReg, setReg_frame x _ s⟩,
    ⟨_, exec_andReg x y s, ?andReg, setReg_frame x _ s⟩, ⟨_, exec_xorReg x y s, ?xorReg, setReg_frame x _ s⟩⟩
  case ldImm => exact reg_setReg_same x kk s
  case addImm => rw [reg_setReg_same, addResult_toNat]
  case ldReg => exact reg_setReg_same x (reg s y) s
  case orReg => intro b; rw [reg_setReg_same, BitVec.getLsbD_or]
  case andReg => intro b; rw [reg_setReg_same, BitVec.getLsbD_and]
  case xorReg => intro b; rw [reg_setReg_same, BitVec.getLsbD_xor]

/-- Settles O20: the arm is one `setI`, and widening `nnn` to 16 bits keeps its value. -/
theorem indexLoad : Obligations.IndexLoad := by
  intro nnn s
  exact ⟨_, exec_ldI nnn s, addrOperand_toNat nnn, changesOnly_setI _ s⟩

end Sys2Proof.Safety

/-! PROOFS. Spec 42_alu: the instructions that write a result and then the flag VF (R155 to R160). -/

namespace Sys2Proof.Machine

theorem exec_addReg (x y : Reg) (s : State) : exec (.addReg x y) s =
    .next (setResultFlag x (addResult (reg s x) (reg s y)) (carry (reg s x) (reg s y)) s) := rfl
theorem exec_subReg (x y : Reg) (s : State) : exec (.subReg x y) s =
    .next (setResultFlag x (subResult (reg s x) (reg s y)) (notBorrow (reg s x) (reg s y)) s) := rfl
theorem exec_subnReg (x y : Reg) (s : State) : exec (.subnReg x y) s =
    .next (setResultFlag x (subResult (reg s y) (reg s x)) (notBorrow (reg s y) (reg s x)) s) := rfl
theorem exec_shr (x : Reg) (y : Nibble) (s : State) : exec (.shr x y) s =
    .next (setResultFlag x (shrResult (reg s x)) (shrOut (reg s x)) s) := rfl
theorem exec_shl (x : Reg) (y : Nibble) (s : State) : exec (.shl x y) s =
    .next (setResultFlag x (shlResult (reg s x)) (shlOut (reg s x)) s) := rfl

theorem flagByte_carry (a b : Byte) : flagByte (carry a b) = if 255 < a.toNat + b.toNat then 1 else 0 := by
  simp only [flagByte, carry, gt_iff_lt, decide_eq_true_eq]

theorem flagByte_notBorrow (a b : Byte) : flagByte (notBorrow a b) = if b.toNat ≤ a.toNat then 1 else 0 := by
  simp only [flagByte, notBorrow, ge_iff_le, decide_eq_true_eq]

theorem reg_setResultFlag_vf (x : Reg) (r : Byte) (c : Bool) (s : State) :
    reg (setResultFlag x r c s) vf = flagByte c := by
  rw [reg_setResultFlag, if_pos rfl]

theorem reg_setResultFlag_dest {x : Reg} (r : Byte) (c : Bool) (s : State) (hx : x ≠ vf) :
    reg (setResultFlag x r c s) x = r := by
  rw [reg_setResultFlag, if_neg hx, if_pos rfl]

theorem reg_setResultFlag_of_ne {x j : Reg} (r : Byte) (c : Bool) (s : State) (hx : j ≠ x) (hvf : j ≠ vf) :
    reg (setResultFlag x r c s) j = reg s j := by
  rw [reg_setResultFlag, if_neg hvf, if_neg hx]

end Sys2Proof.Machine

namespace Sys2Proof.Safety

open Sys2Proof.Machine

/-- The frame of a result and a flag: the registers other than the destination and VF, and everything but V. -/
theorem setResultFlag_frame (x : Reg) (r : Byte) (c : Bool) (s : State) :
    (∀ j, j ≠ x → j ≠ vf → reg (setResultFlag x r c s) j = reg s j) ∧ ChangesOnly [.v] s (setResultFlag x r c s) :=
  ⟨fun _ hx hvf => reg_setResultFlag_of_ne r c s hx hvf, changesOnly_setResultFlag x r c s⟩

/-- Settles O22: each of the three is one `setResultFlag` of bytes computed from the old registers; its second write, to
VF, is the one that stays when `x` is VF. -/
theorem addSubWriteFlagLast : Obligations.AddSubWriteFlagLast := by
  intro x y s
  refine ⟨⟨_, exec_addReg x y s, fun hx => ?addResult, ?carry, setResultFlag_frame x _ _ s⟩,
    ⟨_, exec_subReg x y s, fun hx => ?subResult, ?subFlag, setResultFlag_frame x _ _ s⟩,
    ⟨_, exec_subnReg x y s, fun hx => ?subnResult, ?subnFlag, setResultFlag_frame x _ _ s⟩⟩
  case addResult => rw [reg_setResultFlag_dest _ _ s hx, addResult_toNat]
  case carry => rw [reg_setResultFlag_vf, flagByte_carry]
  case subResult => rw [reg_setResultFlag_dest _ _ s hx, subResult_toNat]
  case subFlag => rw [reg_setResultFlag_vf, flagByte_notBorrow]
  case subnResult => rw [reg_setResultFlag_dest _ _ s hx, subResult_toNat]
  case subnFlag => rw [reg_setResultFlag_vf, flagByte_notBorrow]

/-- Settles O23: each shift is one `setResultFlag` of the old `Vx` shifted and the bit shifted out; no arm reads the nibble
`y`. -/
theorem shiftsWriteFlagLast : Obligations.ShiftsWriteFlagLast := by
  intro x y s
  refine ⟨⟨_, exec_shr x y s, fun hx => ?shrResult, ?shrOut, setResultFlag_frame x _ _ s⟩,
    ⟨_, exec_shl x y s, fun hx => ?shlResult, ?shlOut, setResultFlag_frame x _ _ s⟩⟩
  case shrResult => rw [reg_setResultFlag_dest _ _ s hx, shrResult_toNat]
  case shrOut => rw [reg_setResultFlag_vf, flagByte_shrOut]
  case shlResult => rw [reg_setResultFlag_dest _ _ s hx, shlResult_toNat]
  case shlOut => rw [reg_setResultFlag_vf, flagByte_shlOut]

end Sys2Proof.Safety

/-! PROOFS. Spec 43_display: one pixel toggled (R171, R174) and the clear (R172, R175). -/

namespace Sys2Proof.Machine

theorem exec_cls (s : State) : exec .cls s = .next (setFb clearedFrame s) := rfl

theorem wrapX_val (px : Int) : ((wrapX px).val : Int) = px % 64 :=
  Int.toNat_of_nonneg (Int.emod_nonneg px (by decide))

theorem wrapY_val (py : Int) : ((wrapY py).val : Int) = py % 32 :=
  Int.toNat_of_nonneg (Int.emod_nonneg py (by decide))

/-- R174: the pixel that set_pixel picks is the one at the non-negative remainders. -/
theorem eq_wrap_iff (px py : Int) (y : Fin 32) (x : Fin 64) :
    (y = wrapY py ∧ x = wrapX px) ↔ ((x.val : Int) = px % 64 ∧ (y.val : Int) = py % 32) := by
  rw [← wrapX_val, ← wrapY_val, Int.natCast_inj, Int.natCast_inj, ← Fin.ext_iff, ← Fin.ext_iff, and_comm]

theorem setPixel_hit (f : Frame) (px py : Int) : (setPixel f px py).2 = pixelAt f (wrapY py) (wrapX px) := rfl

theorem pixelAt_setPixel_same (f : Frame) (px py : Int) :
    pixelAt (setPixel f px py).1 (wrapY py) (wrapX px) = !pixelAt f (wrapY py) (wrapX px) := by
  rw [pixelAt_setPixel, decide_eq_true ⟨rfl, rfl⟩, Bool.xor_true]

theorem pixelAt_setPixel_of_ne (f : Frame) {px py : Int} {y : Fin 32} {x : Fin 64}
    (h : ¬(y = wrapY py ∧ x = wrapX px)) : pixelAt (setPixel f px py).1 y x = pixelAt f y x := by
  rw [pixelAt_setPixel, decide_eq_false h, Bool.xor_false]

end Sys2Proof.Machine

namespace Sys2Proof.Safety

open Sys2Proof.Machine

/-- Settles O25: the remainders name the pixel `(wrapX px, wrapY py)`, the only one whose value `setPixel` xors with 1, and
the answer is that pixel's old value. -/
theorem setPixelTogglesOne : Obligations.SetPixelTogglesOne := by
  intro f px py y x
  rw [← eq_wrap_iff]
  constructor
  · rintro ⟨rfl, rfl⟩
    exact ⟨pixelAt_setPixel_same f px py, setPixel_hit f px py⟩
  · exact pixelAt_setPixel_of_ne f

/-- Settles O24: CLS is one `setFb` of the cleared frame. -/
theorem clearTurnsPixelsOff : Obligations.ClearTurnsPixelsOff := fun s =>
  ⟨_, exec_cls s, pixelAt_clearedFrame, changesOnly_setFb _ s⟩

end Sys2Proof.Safety

/-! PROOFS. Spec 45_timer_index_memory: the timer moves (R201 to R203) and the font pointer (R205, with the reset font of
R40 and R68). -/

namespace Sys2Proof.Machine

theorem exec_ldVxDt (x : Reg) (s : State) : exec (.ldVxDt x) s = .next (setReg x s.dt s) := rfl
theorem exec_ldDtVx (x : Reg) (s : State) : exec (.ldDtVx x) s = .next (setDt (reg s x) s) := rfl
theorem exec_ldStVx (x : Reg) (s : State) : exec (.ldStVx x) s = .next (setSt (reg s x) s) := rfl
theorem exec_ldF (x : Reg) (s : State) : exec (.ldF x) s = .next (setI (fontAddress s.cfg (reg s x)) s) := rfl

theorem byteAt_resetFrom (s : State) (a : Nat) : byteAt (resetFrom s) a = background s.cfg a := rfl

/-- R40, R68: the background holds the font from `fontBase` on. -/
theorem background_font {c : Config} {k : Nat} (hk : k < c.font.length) :
    background c (c.fontBase + k) = c.font[k] := by
  rw [background, if_pos (Nat.le_add_right _ _), Nat.add_sub_cancel_left, List.getD_eq_getElem _ _ hk]

/-- R68: the rows of a digit's glyph lie inside a font of 80 bytes. -/
theorem background_glyph {c : Config} {d row : Nat} (hfont : c.font.length = 80) (hd : d ≤ 15) (hrow : row < 5) :
    some (background c (c.fontBase + 5 * d + row)) = c.font[5 * d + row]? := by
  have hk : 5 * d + row < c.font.length := by omega
  rw [Nat.add_assoc, background_font hk, List.getElem?_eq_getElem hk]

end Sys2Proof.Machine

namespace Sys2Proof.Safety

open Sys2Proof.Machine

/-- Settles O34: D1 puts the font low enough that `fontAddress` loses no bit, and where memory reads as after reset it
reads as the background, which holds the glyph. -/
theorem fontPointer : Obligations.FontPointer := by
  intro x s hwf
  obtain ⟨hbase, hfont⟩ := s.cfg.wf_iff.1 hwf
  have hi : (fontAddress s.cfg (reg s x)).toNat = s.cfg.fontBase + 5 * (reg s x).toNat := fontAddress_toNat _ hbase
  refine ⟨_, exec_ldF x s, hi, changesOnly_setI _ s, fun hdigit hreset row hrow => ?glyph⟩
  case glyph =>
    rw [byteAt_setI, hreset row hrow, byteAt_resetFrom, setI_i, hi]
    exact background_glyph hfont hdigit hrow

/-- Settles O32: the read of DT is one `setReg`, and the two writes are one `setDt` and one `setSt` of `Vx`. -/
theorem timerMoves : Obligations.TimerMoves := by
  intro x s
  refine ⟨?ldVxDt, ?ldDtVx, ?ldStVx⟩
  case ldVxDt => exact ⟨_, exec_ldVxDt x s, reg_setReg_same x s.dt s, setReg_frame x _ s⟩
  case ldDtVx => exact ⟨_, exec_ldDtVx x s, setDt_dt _ s, changesOnly_setDt _ s⟩
  case ldStVx => exact ⟨_, exec_ldStVx x s, setSt_st _ s, changesOnly_setSt _ s⟩

end Sys2Proof.Safety

/-! PROOFS. Spec 60_exceptions: key_set and the end of a key wait (R240, R241). -/

namespace Sys2Proof.Machine

/-- R241: while the core waits, a transition to pressed records the key, writes its number and runs the core again. -/
theorem keySet_of_wakes {k : Key} {s : State} {r : Reg} (hup : s.keys[k] = false) (hrun : s.run = .waitingForKey r) :
    keySet k true s = setRun .running (setReg r (BitVec.ofNat 8 k.val) (setKeys (s.keys.set k true) s)) := by
  simp only [keySet, hup, Bool.not_false, Bool.and_self, if_true, wake, setKeys_run, hrun]

theorem wake_of_not_waiting {s : State} (k : Key) (h : ∀ r, s.run ≠ .waitingForKey r) : wake k s = s := by
  cases hrun : s.run with
  | waitingForKey r => exact absurd hrun (h r)
  | running => rw [wake, hrun]
  | faulted e info => rw [wake, hrun]

/-- R240: a release, a key already down, or a core that does not wait: the key is recorded and that is all. -/
theorem keySet_of_not_wakes {k : Key} {b : Bool} {s : State}
    (h : ¬(b = true ∧ s.keys[k] = false ∧ ∃ r, s.run = .waitingForKey r)) :
    keySet k b s = setKeys (s.keys.set k b) s := by
  by_cases hdown : b = true ∧ s.keys[k] = false
  · obtain ⟨hb, hup⟩ := hdown
    have hrun : ∀ r, (setKeys (s.keys.set k b) s).run ≠ .waitingForKey r := fun r hr => h ⟨hb, hup, r, hr⟩
    rw [keySet, wake_of_not_waiting k hrun, ite_self]
  · rw [keySet, if_neg (by simpa using hdown)]

/-- R240: in every RUN state the key array is the old one with the entry of `k` set. -/
theorem keySet_keys (k : Key) (b : Bool) (s : State) : (keySet k b s).keys = s.keys.set k b := by
  by_cases h : b = true ∧ s.keys[k] = false ∧ ∃ r, s.run = .waitingForKey r
  · obtain ⟨rfl, hup, r, hrun⟩ := h
    rw [keySet_of_wakes hup hrun, setRun_keys, setReg_keys, setKeys_keys]
  · rw [keySet_of_not_wakes h, setKeys_keys]

end Sys2Proof.Machine

namespace Sys2Proof.Safety

open Sys2Proof.Machine

/-- The frame of a record, a register write and a change of RUN in a row. -/
theorem changesOnly_setRun_setReg_setKeys (q : RunState) (r : Reg) (b : Byte) (l : Vector Bool 16) (s : State) :
    ChangesOnly [.keys, .run, .v] s (setRun q (setReg r b (setKeys l s))) :=
  have hkeys : ChangesOnly [.keys, .run, .v] s (setKeys l s) := (changesOnly_setKeys l s).mono (by simp)
  have hreg := (changesOnly_setReg r b (setKeys l s)).mono (by simp)
  have hrun := (changesOnly_setRun q (setReg r b (setKeys l s))).mono (by simp)
  (hkeys.trans hreg).trans hrun

/-- Settles O31: every key_set sets one entry of the key array; the waking one adds a `setReg` and a `setRun` to it, and
any other adds nothing. -/
theorem keySetRecordsAndWakes : Obligations.KeySetRecordsAndWakes := by
  intro k b s
  refine ⟨fun j => ?records, fun r hb hup hrun => ?wakes, fun h => ?otherwise⟩
  case records =>
    simp only [keySet_keys, Fin.getElem_fin, Vector.getElem_set, Fin.ext_iff, @eq_comm _ k.val]
  case wakes =>
    have hk : k.val < 256 := by omega
    rw [hb, keySet_of_wakes hup hrun]
    refine ⟨setRun_run _ _, ?number, fun j hj => ?others, changesOnly_setRun_setReg_setKeys _ r _ _ s⟩
    case number => rw [reg_setRun, reg_setReg_same, BitVec.toNat_ofNat, Nat.mod_eq_of_lt hk]
    case others => rw [reg_setRun, reg_setReg_of_ne _ _ hj, reg_setKeys]
  case otherwise =>
    rw [keySet_of_not_wakes h]
    exact changesOnly_setKeys _ s

end Sys2Proof.Safety

/-! PROOFS. Spec 30_encoding: decoding and encoding are inverse (R92, R94, R95), and what the opcode map selects (R95,
R96). -/

namespace Sys2Proof

/-! ## What a row selects, by the fields its mask keeps -/

@[simp] theorem fieldOp_ofNat (k : Nat) : fieldOp (BitVec.ofNat 16 k) = BitVec.ofNat 4 (k / 4096) := by
  apply BitVec.eq_of_toNat_eq
  rw [toNat_fieldOp, BitVec.toNat_ofNat, BitVec.toNat_ofNat]; omega

@[simp] theorem fieldN_ofNat (k : Nat) : fieldN (BitVec.ofNat 16 k) = BitVec.ofNat 4 k := by
  apply BitVec.eq_of_toNat_eq
  rw [toNat_fieldN, BitVec.toNat_ofNat, BitVec.toNat_ofNat]; omega

@[simp] theorem fieldKk_ofNat (k : Nat) : fieldKk (BitVec.ofNat 16 k) = BitVec.ofNat 8 k := by
  apply BitVec.eq_of_toNat_eq
  rw [toNat_fieldKk, BitVec.toNat_ofNat, BitVec.toNat_ofNat]; omega

theorem selects_maskAll {p : String} {v w : Word} (h : OpcodeRow.selects ⟨p, 0xFFFF, v⟩ w = true) : w = v :=
  (and_maskAll w).symm.trans (beq_iff_eq.1 h)

theorem selects_maskOp {p : String} {v w : Word} (h : OpcodeRow.selects ⟨p, 0xF000, v⟩ w = true) :
    fieldOp w = fieldOp v := by
  have hw : formatA (fieldOp w) 0 = v := (and_maskOp w).symm.trans (beq_iff_eq.1 h)
  rw [← hw, fieldOp_formatA]

theorem selects_maskOpN {p : String} {v w : Word} (h : OpcodeRow.selects ⟨p, 0xF00F, v⟩ w = true) :
    fieldOp w = fieldOp v ∧ fieldN w = fieldN v := by
  have hw : formatR (fieldOp w) 0 0 (fieldN w) = v := (and_maskOpN w).symm.trans (beq_iff_eq.1 h)
  rw [← hw, fieldOp_formatR, fieldN_formatR]
  exact ⟨rfl, rfl⟩

theorem selects_maskOpKk {p : String} {v w : Word} (h : OpcodeRow.selects ⟨p, 0xF0FF, v⟩ w = true) :
    fieldOp w = fieldOp v ∧ fieldKk w = fieldKk v := by
  have hw : formatI (fieldOp w) 0 (fieldKk w) = v := (and_maskOpKk w).symm.trans (beq_iff_eq.1 h)
  rw [← hw, fieldOp_formatI, fieldKk_formatI]
  exact ⟨rfl, rfl⟩

/-! ## Decoding family by family (R94) -/

theorem decode_of_op_alu {w : Word} (h : fieldOp w = 0x8) : decode w = decodeAlu w := by rw [decode, h]; rfl
theorem decode_of_op_key {w : Word} (h : fieldOp w = 0xE) : decode w = decodeKey w := by rw [decode, h]; rfl
theorem decode_of_op_misc {w : Word} (h : fieldOp w = 0xF) : decode w = decodeMisc w := by rw [decode, h]; rfl

@[simp] theorem decode_encode (i : Instr) : decode (encode i) = some i := by
  cases i with
  | cls | ret => decide
  | jp | call | ldI | jpV0 => simp [encode, decode]
  | seImm | sneImm | ldImm | addImm | rnd => simp [encode, decode]
  | seReg | sneReg | drw => simp [encode, decode]
  | ldReg | orReg | andReg | xorReg | addReg | subReg | shr | subnReg | shl =>
    simp [encode, decode_of_op_alu, decodeAlu]
  | skp | sknp => simp [encode, decode_of_op_key, decodeKey]
  | ldVxDt | ldVxK | ldDtVx | ldStVx | addI | ldF | ldB | ldMemVx | ldVxMem =>
    simp [encode, decode_of_op_misc, decodeMisc]

/-! ## A word is the word of what it decodes to -/

theorem formatA_of_fieldOp {w : Word} {op : Nibble} (h : fieldOp w = op) : formatA op (fieldNnn w) = w := by
  rw [← h, formatA_fields]

theorem formatI_of_fieldOp {w : Word} {op : Nibble} (h : fieldOp w = op) :
    formatI op (regBits (fieldX w)) (fieldKk w) = w := by
  rw [← h, formatI_fields]

theorem formatR_of_fieldOp {w : Word} {op : Nibble} (h : fieldOp w = op) :
    formatR op (regBits (fieldX w)) (fieldYBits w) (fieldN w) = w := by
  rw [← h, formatR_fields]

theorem formatI_of_fields {w : Word} {op : Nibble} {kk : Byte} (hop : fieldOp w = op) (hkk : fieldKk w = kk) :
    formatI op (regBits (fieldX w)) kk = w := by
  rw [← hkk, formatI_of_fieldOp hop]

theorem formatR_of_fields {w : Word} {op n : Nibble} (hop : fieldOp w = op) (hn : fieldN w = n) :
    formatR op (regBits (fieldX w)) (fieldYBits w) n = w := by
  rw [← hn, formatR_of_fieldOp hop]

theorem encode_of_decodeZero {w : Word} {i : Instr} (h : decodeZero w = some i) : encode i = w := by
  unfold decodeZero at h
  split at h <;> cases h <;> rfl

theorem encode_of_decodeAlu {w : Word} {i : Instr} (hop : fieldOp w = 0x8) (h : decodeAlu w = some i) :
    encode i = w := by
  unfold decodeAlu at h
  split at h <;> cases h <;> exact formatR_of_fields hop ‹_›

theorem encode_of_decodeKey {w : Word} {i : Instr} (hop : fieldOp w = 0xE) (h : decodeKey w = some i) :
    encode i = w := by
  unfold decodeKey at h
  split at h <;> cases h <;> exact formatI_of_fields hop ‹_›

theorem encode_of_decodeMisc {w : Word} {i : Instr} (hop : fieldOp w = 0xF) (h : decodeMisc w = some i) :
    encode i = w := by
  unfold decodeMisc at h
  split at h <;> cases h <;> exact formatI_of_fields hop ‹_›

/-- The one value left of a nibble, in the last branch of `decode`. -/
theorem nibble_eq_F_of_ne {b : Nibble} : (b = 0x0 → False) → (b = 0x1 → False) → (b = 0x2 → False) →
    (b = 0x3 → False) → (b = 0x4 → False) → (b = 0x5 → False) → (b = 0x6 → False) → (b = 0x7 → False) →
    (b = 0x8 → False) → (b = 0x9 → False) → (b = 0xA → False) → (b = 0xB → False) → (b = 0xC → False) →
    (b = 0xD → False) → (b = 0xE → False) → b = 0xF := by
  revert b; decide

/-- The values left of a nibble in the last branch of `decodeAlu`. -/
theorem nibble_mem_of_ne {b : Nibble} : (b = 0x0 → False) → (b = 0x1 → False) → (b = 0x2 → False) →
    (b = 0x3 → False) → (b = 0x4 → False) → (b = 0x5 → False) → (b = 0x6 → False) → (b = 0x7 → False) →
    (b = 0xE → False) → b ∈ [0x8#4, 0x9#4, 0xA#4, 0xB#4, 0xC#4, 0xD#4, 0xF#4] := by
  revert b; decide

theorem encode_of_decode {w : Word} {i : Instr} (h : decode w = some i) : encode i = w := by
  unfold decode at h
  split at h
  case h_1 hop => exact encode_of_decodeZero h
  case h_9 hop => exact encode_of_decodeAlu hop h
  case h_15 hop => exact encode_of_decodeKey hop h
  case h_16 => exact encode_of_decodeMisc (by apply nibble_eq_F_of_ne <;> assumption) h
  case h_2 hop | h_3 hop | h_11 hop | h_12 hop => cases h; exact formatA_of_fieldOp hop
  case h_4 hop | h_5 hop | h_7 hop | h_8 hop | h_13 hop => cases h; exact formatI_of_fieldOp hop
  case h_6 hop | h_10 hop | h_14 hop => cases h; exact formatR_of_fieldOp hop

/-! ## The row of the opcode map a word selects -/

open Sys2Proof.Laws

theorem rowOf_mem (i : Instr) : rowOf i ∈ opcodeRows := by
  cases i <;> simp [rowOf, opcodeRows, opcodeRowsLow, opcodeRowsHigh]

/-- The family RowMatch, put together. -/
theorem rowOf_selects_encode (i : Instr) : (rowOf i).selects (encode i) = true := by
  cases i with
  | cls => exact RowMatch.cls
  | ret => exact RowMatch.ret
  | jp nnn => exact RowMatch.jp nnn
  | call nnn => exact RowMatch.call nnn
  | seImm x kk => exact RowMatch.seImm x kk
  | sneImm x kk => exact RowMatch.sneImm x kk
  | seReg x y n => exact RowMatch.seReg x y n
  | ldImm x kk => exact RowMatch.ldImm x kk
  | addImm x kk => exact RowMatch.addImm x kk
  | ldReg x y => exact RowMatch.ldReg x y
  | orReg x y => exact RowMatch.orReg x y
  | andReg x y => exact RowMatch.andReg x y
  | xorReg x y => exact RowMatch.xorReg x y
  | addReg x y => exact RowMatch.addReg x y
  | subReg x y => exact RowMatch.subReg x y
  | shr x y => exact RowMatch.shr x y
  | subnReg x y => exact RowMatch.subnReg x y
  | shl x y => exact RowMatch.shl x y
  | sneReg x y n => exact RowMatch.sneReg x y n
  | ldI nnn => exact RowMatch.ldI nnn
  | jpV0 nnn => exact RowMatch.jpV0 nnn
  | rnd x kk => exact RowMatch.rnd x kk
  | drw x y n => exact RowMatch.drw x y n
  | skp x => exact RowMatch.skp x
  | sknp x => exact RowMatch.sknp x
  | ldVxDt x => exact RowMatch.ldVxDt x
  | ldVxK x => exact RowMatch.ldVxK x
  | ldDtVx x => exact RowMatch.ldDtVx x
  | ldStVx x => exact RowMatch.ldStVx x
  | addI x => exact RowMatch.addI x
  | ldF x => exact RowMatch.ldF x
  | ldB x => exact RowMatch.ldB x
  | ldMemVx x => exact RowMatch.ldMemVx x
  | ldVxMem x => exact RowMatch.ldVxMem x

/-- One instruction of each kind, in the order of the opcode map. -/
def oneOfEachRow : List Instr :=
  [.cls, .ret, .jp 0, .call 0, .seImm 0 0, .sneImm 0 0, .seReg 0 0 0, .ldImm 0 0, .addImm 0 0, .ldReg 0 0, .orReg 0 0,
   .andReg 0 0, .xorReg 0 0, .addReg 0 0, .subReg 0 0, .shr 0 0, .subnReg 0 0, .shl 0 0, .sneReg 0 0 0, .ldI 0, .jpV0 0,
   .rnd 0 0, .drw 0 0 0, .skp 0, .sknp 0, .ldVxDt 0, .ldVxK 0, .ldDtVx 0, .ldStVx 0, .addI 0, .ldF 0, .ldB 0,
   .ldMemVx 0, .ldVxMem 0]

theorem opcodeRows_eq_map : opcodeRows = oneOfEachRow.map rowOf := rfl

/-- The fields a row's mask keeps send the decoder to an instruction of that row. -/
theorem decode_of_rowOf_selects {w : Word} (i : Instr) (h : (rowOf i).selects w = true) :
    ∃ j, decode w = some j ∧ rowOf j = rowOf i := by
  cases i with
  | cls => exact ⟨.cls, selects_maskAll h ▸ decode_encode .cls, rfl⟩
  | ret => exact ⟨.ret, selects_maskAll h ▸ decode_encode .ret, rfl⟩
  | jp | call | seImm | sneImm | seReg | ldImm | addImm | sneReg | ldI | jpV0 | rnd | drw =>
    simp [decode, selects_maskOp h, rowOf]
  | ldReg | orReg | andReg | xorReg | addReg | subReg | shr | subnReg | shl =>
    obtain ⟨hop, hn⟩ := selects_maskOpN h
    simp [decode_of_op_alu hop, decodeAlu, hn, rowOf]
  | skp | sknp =>
    obtain ⟨hop, hkk⟩ := selects_maskOpKk h
    simp [decode_of_op_key hop, decodeKey, hkk, rowOf]
  | ldVxDt | ldVxK | ldDtVx | ldStVx | addI | ldF | ldB | ldMemVx | ldVxMem =>
    obtain ⟨hop, hkk⟩ := selects_maskOpKk h
    simp [decode_of_op_misc hop, decodeMisc, hkk, rowOf]

/-- A row that selects a word is the row of what the word decodes to. -/
theorem decode_of_selects {r : OpcodeRow} {w : Word} (hr : r ∈ opcodeRows) (h : r.selects w = true) :
    ∃ i, decode w = some i ∧ rowOf i = r := by
  rw [opcodeRows_eq_map, List.mem_map] at hr
  obtain ⟨i, -, rfl⟩ := hr
  exact decode_of_rowOf_selects i h

theorem wordListed_iff (w : Word) : wordListed w = true ↔ ∃ r ∈ opcodeRows, r.selects w = true := List.any_eq_true

/-! ## The words that decode to nothing (R96) -/

theorem decodeZero_eq_none_iff (w : Word) : decodeZero w = none ↔ w ≠ 0x00E0 ∧ w ≠ 0x00EE := by
  unfold decodeZero
  split <;> simp_all

theorem decodeAlu_eq_none_iff (w : Word) :
    decodeAlu w = none ↔ fieldN w ∈ [0x8#4, 0x9#4, 0xA#4, 0xB#4, 0xC#4, 0xD#4, 0xF#4] := by
  unfold decodeAlu
  split
  case h_10 =>
    have hn : fieldN w ∈ [0x8#4, 0x9#4, 0xA#4, 0xB#4, 0xC#4, 0xD#4, 0xF#4] := by
      apply nibble_mem_of_ne <;> assumption
    simp only [hn]
  all_goals simp_all

theorem decodeKey_eq_none_iff (w : Word) : decodeKey w = none ↔ fieldKk w ∉ [0x9E#8, 0xA1#8] := by
  unfold decodeKey
  split <;> simp_all

theorem decodeMisc_eq_none_iff (w : Word) : decodeMisc w = none ↔
    fieldKk w ∉ [0x07#8, 0x0A#8, 0x15#8, 0x18#8, 0x1E#8, 0x29#8, 0x33#8, 0x55#8, 0x65#8] := by
  unfold decodeMisc
  split <;> simp_all

theorem decode_eq_none_iff (w : Word) : decode w = none ↔
    (fieldOp w = 0x0 ∧ decodeZero w = none) ∨ (fieldOp w = 0x8 ∧ decodeAlu w = none) ∨
    (fieldOp w = 0xE ∧ decodeKey w = none) ∨ (fieldOp w = 0xF ∧ decodeMisc w = none) := by
  unfold decode
  split
  case h_16 =>
    have hop : fieldOp w = 0xF := by apply nibble_eq_F_of_ne <;> assumption
    simp [hop]
  all_goals simp_all

end Sys2Proof

namespace Sys2Proof.Safety

/-- Settles O2: the fields of a format are the operands it was built from, so each family's subselector picks the arm of
the instruction. -/
theorem decodeOfEncode : Obligations.DecodeOfEncode := decode_encode

/-- Settles O3: each arm of `decode` hands on the fields its word's format is built from. -/
theorem encodeOfDecode : Obligations.EncodeOfDecode := fun _ _ => encode_of_decode

/-- Settles O4: a word that decodes is selected by the row of its instruction, and a word a row selects decodes to an
instruction of that row. -/
theorem decodeAcceptsOpcodeMap : Obligations.DecodeAcceptsOpcodeMap := by
  intro w
  rw [Bool.eq_iff_iff, wordListed_iff, Option.isSome_iff_exists]
  constructor
  · rintro ⟨i, hi⟩
    exact ⟨Laws.rowOf i, rowOf_mem i, encode_of_decode hi ▸ rowOf_selects_encode i⟩
  · rintro ⟨r, hr, hsel⟩
    obtain ⟨i, hi, -⟩ := decode_of_selects hr hsel
    exact ⟨i, hi⟩

/-- Settles O5: both rows are the row of the one instruction the word decodes to. -/
theorem opcodeRowsDisjoint : Obligations.OpcodeRowsDisjoint := by
  intro r hr q hq w hrw hqw
  obtain ⟨i, hi, hri⟩ := decode_of_selects hr hrw
  obtain ⟨j, hj, hqj⟩ := decode_of_selects hq hqw
  have hij : i = j := Option.some.inj (hi.symm.trans hj)
  rw [← hri, ← hqj, hij]

/-- Settles O6: only the families 0, 8, E and F have words that their subselector does not accept. -/
theorem invalidWordsAreListed : Obligations.InvalidWordsAreListed := by
  intro w
  rw [decode_eq_none_iff, decodeZero_eq_none_iff, decodeAlu_eq_none_iff, decodeKey_eq_none_iff,
    decodeMisc_eq_none_iff]

/-- Settles O1: the eighteen words and 0000 are closed terms on which `decode` computes. -/
theorem specWordsDecode : Obligations.SpecWordsDecode := by
  unfold Obligations.SpecWordsDecode
  decide

end Sys2Proof.Safety

/-! PROOFS. All instructions at once: what an instruction does when it runs to its own effect (R42), and that `exec`
answers this effect, the instruction's one error (R228), or the model's own fault outside the stack array. -/

namespace Sys2Proof.Machine

theorem exec_ret (s : State) : exec .ret s = execRet s := rfl
theorem exec_call (nnn : Addr) (s : State) : exec (.call nnn) s = execCall nnn s := rfl

/-! RET on an empty stack, on an entry, and outside the array (R122). -/

theorem execRet_empty {s : State} (h : s.sp = 0) : execRet s = .next (raise .stackUnderflow 0 s) := if_pos h

theorem execRet_entry {s : State} {a : Word} (hsp : 0 < s.sp) (ha : s.stack[s.sp - 1]? = some a) :
    execRet s = .next (setPc a (setStack s.stack (s.sp - 1) s)) := by
  rw [execRet, if_neg (Nat.pos_iff_ne_zero.1 hsp), pop_some ha]

theorem execRet_outside {s : State} (hsp : 0 < s.sp) (h : s.stack[s.sp - 1]? = none) :
    execRet s = .fault .stackEntryMissing := by
  rw [execRet, if_neg (Nat.pos_iff_ne_zero.1 hsp), pop_none h]

/-! CALL on a full stack, with room, and outside the array (R125). -/

theorem execCall_full {s : State} (nnn : Addr) (h : s.sp = s.cfg.stackDepth) :
    execCall nnn s = .next (raise .stackOverflow 0 s) := if_pos h

theorem execCall_room {s : State} (nnn : Addr) (hsp : s.sp ≠ s.cfg.stackDepth) (hlt : s.sp < s.stack.length) :
    execCall nnn s = .next (setPc (addrOperand nnn) (setStack (s.stack.set s.sp s.pc) (s.sp + 1) s)) := by
  rw [execCall, if_neg hsp, push_some hlt]

theorem execCall_outside {s : State} (nnn : Addr) (hsp : s.sp ≠ s.cfg.stackDepth) (h : ¬s.sp < s.stack.length) :
    execCall nnn s = .fault .stackEntryMissing := by
  rw [execCall, if_neg hsp, push_none h]

theorem exec_rnd (x : Reg) (kk : Byte) (s : State) :
    exec (.rnd x kk) s = .next (setReg x (Config.draw8 s.draws &&& kk) (setDraws (s.draws + 1) s)) := rfl
theorem exec_drw (x y : Reg) (n : Nibble) (s : State) :
    exec (.drw x y n) s = .next (withSpan n.toNat s (drawAt x y n.toNat)) := rfl
theorem exec_skp (x : Reg) (s : State) : exec (.skp x) s = .next (skipOnKey x true s) := rfl
theorem exec_sknp (x : Reg) (s : State) : exec (.sknp x) s = .next (skipOnKey x false s) := rfl
theorem exec_ldVxK (x : Reg) (s : State) : exec (.ldVxK x) s = .next (setRun (.waitingForKey x) s) := rfl
theorem exec_addI (x : Reg) (s : State) : exec (.addI x) s = .next (setI (indexSum s.i (reg s x)) s) := rfl

/-- R206: what LD B, Vx does once its addresses are checked. -/
def storeBcd (x : Reg) (s : State) : State := storeBytes s.i.toNat (bcdDigits (reg s x)) s

/-- R207: what LD [I], Vx does once its addresses are checked. -/
def storeBlock (x : Reg) (s : State) : State := storeBytes s.i.toNat (regBlock s x) s

/-- R208: what LD Vx, [I] does once its addresses are checked. -/
def fetchBlock (x : Reg) (s : State) : State := setV (loadBlock (loadBytes s s.i.toNat (x.val + 1)) s.v) s

theorem exec_ldB (x : Reg) (s : State) : exec (.ldB x) s = .next (withSpan 3 s (storeBcd x)) := rfl
theorem exec_ldMemVx (x : Reg) (s : State) :
    exec (.ldMemVx x) s = .next (withSpan (x.val + 1) s (storeBlock x)) := rfl
theorem exec_ldVxMem (x : Reg) (s : State) :
    exec (.ldVxMem x) s = .next (withSpan (x.val + 1) s (fetchBlock x)) := rfl

/-- The address a checked access reports fits the 16 bits of `info` (R34, R67). -/
theorem toNat_lowestBad (a : Word) : (BitVec.ofNat 16 (max a.toNat 4096)).toNat = max a.toNat 4096 := by
  have := a.isLt
  rw [BitVec.toNat_ofNat]; omega

/-- Whether the key a register value names is down; a value above 15 names none. -/
def keyNamedDown (b : Byte) (s : State) : Bool :=
  match keyOperand b with
  | some k => s.keys[k]
  | none => false

theorem keyNamedDown_of_key {b : Byte} {k : Key} (h : b.toNat = k.val) (s : State) :
    keyNamedDown b s = s.keys[k] := by
  rw [keyNamedDown, keyOperand_some h]

end Sys2Proof.Machine

namespace Sys2Proof.Safety

open Sys2Proof.Machine

/-- The state in which an instruction that meets its condition leaves the core. -/
def effect (i : Instr) (s : State) : State :=
  match i with
  | .cls => setFb clearedFrame s
  | .ret => setPc (s.stack.getD (s.sp - 1) 0) (setStack s.stack (s.sp - 1) s)
  | .jp nnn => setPc (addrOperand nnn) s
  | .call nnn => setPc (addrOperand nnn) (setStack (s.stack.set s.sp s.pc) (s.sp + 1) s)
  | .seImm x kk => skipIf (reg s x == kk) s
  | .sneImm x kk => skipIf (reg s x != kk) s
  | .seReg x y _ => skipIf (reg s x == reg s y) s
  | .ldImm x kk => setReg x kk s
  | .addImm x kk => setReg x (addResult (reg s x) kk) s
  | .ldReg x y => setReg x (reg s y) s
  | .orReg x y => setReg x (reg s x ||| reg s y) s
  | .andReg x y => setReg x (reg s x &&& reg s y) s
  | .xorReg x y => setReg x (reg s x ^^^ reg s y) s
  | .addReg x y => setResultFlag x (addResult (reg s x) (reg s y)) (carry (reg s x) (reg s y)) s
  | .subReg x y => setResultFlag x (subResult (reg s x) (reg s y)) (notBorrow (reg s x) (reg s y)) s
  | .shr x _ => setResultFlag x (shrResult (reg s x)) (shrOut (reg s x)) s
  | .subnReg x y => setResultFlag x (subResult (reg s y) (reg s x)) (notBorrow (reg s y) (reg s x)) s
  | .shl x _ => setResultFlag x (shlResult (reg s x)) (shlOut (reg s x)) s
  | .sneReg x y _ => skipIf (reg s x != reg s y) s
  | .ldI nnn => setI (addrOperand nnn) s
  | .jpV0 nnn => setPc (offsetTarget nnn (reg s 0)) s
  | .rnd x kk => setReg x (Config.draw8 s.draws &&& kk) (setDraws (s.draws + 1) s)
  | .drw x y n => drawAt x y n.toNat s
  | .skp x => skipIf (keyNamedDown (reg s x) s == true) s
  | .sknp x => skipIf (keyNamedDown (reg s x) s == false) s
  | .ldVxDt x => setReg x s.dt s
  | .ldVxK x => setRun (.waitingForKey x) s
  | .ldDtVx x => setDt (reg s x) s
  | .ldStVx x => setSt (reg s x) s
  | .addI x => setI (indexSum s.i (reg s x)) s
  | .ldF x => setI (fontAddress s.cfg (reg s x)) s
  | .ldB x => storeBcd x s
  | .ldMemVx x => storeBlock x s
  | .ldVxMem x => fetchBlock x s

/-- R28: the stack array has STACK_DEPTH entries and SP counts some of them. -/
def StackSized (s : State) : Prop := s.stack.length = s.cfg.stackDepth ∧ s.sp ≤ s.cfg.stackDepth

/-- What `exec i s` can be: the effect, the instruction's one error, or the model's own fault (log 20). -/
inductive Answer (i : Instr) (s : State) : Host.Outcome State Fault Refusal → Prop
  | effect (hu : StackSized s → Unhindered i s) : Answer i s (.next (effect i s))
  | raised {e : ErrorKind} {info : Word} (hn : ¬Unhindered i s) (he : executeError i = some e)
      (hinfo : errorInfoLegal e info = true) : Answer i s (.next (raise e info s))
  | outside (hn : ¬Unhindered i s) (hs : ¬StackSized s) : Answer i s (.fault .stackEntryMissing)

theorem lowestBad_legal (a : Word) :
    errorInfoLegal .memoryAccessOutOfRange (BitVec.ofNat 16 (max a.toNat 4096)) = true :=
  decide_eq_true (by rw [toNat_lowestBad]; exact le_max_right _ _)

theorem answer_ret (s : State) : Answer .ret s (exec .ret s) := by
  rw [exec_ret]
  rcases execRet_cases s with ⟨hsp, h⟩ | ⟨hsp, a, ha, h⟩ | ⟨hsp, hnone, h⟩
  · rw [h]
    exact .raised (fun hu => absurd hu.1 (by omega)) rfl rfl
  · have heff : effect .ret s = setPc a (setStack s.stack (s.sp - 1) s) := by
      rw [effect, List.getD_eq_getElem?_getD, ha, Option.getD_some]
    obtain ⟨hlt, -⟩ := List.getElem?_eq_some_iff.1 ha
    rw [h, ← heff]
    exact .effect fun _ => ⟨hsp, by omega⟩
  · have hout : s.stack.length ≤ s.sp - 1 := List.getElem?_eq_none_iff.1 hnone
    rw [h]
    refine .outside (fun ⟨_, hle⟩ => ?_) (fun ⟨hlen, hle⟩ => ?_) <;> omega

theorem answer_call (nnn : Addr) (s : State) : Answer (.call nnn) s (exec (.call nnn) s) := by
  rw [exec_call]
  rcases execCall_cases nnn s with ⟨hsp, h⟩ | ⟨hsp, hlt, h⟩ | ⟨hsp, hout, h⟩ <;> rw [h]
  · exact .raised (fun ⟨hlt, _⟩ => absurd hlt (by omega)) rfl rfl
  · exact .effect fun ⟨hlen, _⟩ => ⟨by omega, hlen⟩
  · refine .outside (fun ⟨hlt, hlen⟩ => ?_) (fun ⟨hlen, hle⟩ => ?_) <;> omega

/-- The answer of an instruction that checks the span of its addresses first (R67). -/
theorem answer_withSpan {i : Instr} {s : State} {len : Nat} {act : State → State} (hact : effect i s = act s)
    (hu : Unhindered i s ↔ (len = 0 ∨ s.i.toNat + len ≤ 4096))
    (he : executeError i = some .memoryAccessOutOfRange) : Answer i s (.next (withSpan len s act)) := by
  rcases withSpan_cases len s act with ⟨hfits, h⟩ | ⟨hbad, h⟩ <;> rw [h]
  · rw [← hact]
    exact .effect fun _ => hu.2 hfits
  · exact .raised (mt hu.1 hbad) he (lowestBad_legal s.i)

/-- The answer of a skip on a key (R190 to R192). -/
theorem answer_skipOnKey {i : Instr} {x : Reg} {wanted : Bool} {s : State}
    (heff : effect i s = skipIf (keyNamedDown (reg s x) s == wanted) s)
    (hu : Unhindered i s ↔ (reg s x).toNat ≤ 15) (he : executeError i = some .keyIndexOutOfRange) :
    Answer i s (.next (skipOnKey x wanted s)) := by
  rcases skipOnKey_cases x wanted s with ⟨k, hk, h⟩ | ⟨hbig, h⟩ <;> rw [h]
  · have hle : (reg s x).toNat ≤ 15 := by omega
    rw [← keyNamedDown_of_key hk, ← heff]
    exact .effect fun _ => hu.2 hle
  · have := (reg s x).isLt
    refine .raised (fun h => absurd (hu.1 h) (by omega)) he ?_
    simp only [errorInfoLegal, BitVec.toNat_setWidth, Bool.and_eq_true, decide_eq_true_eq]
    omega

theorem exec_answer (i : Instr) (s : State) : Answer i s (exec i s) := by
  cases i with
  | ret => exact answer_ret s
  | call nnn => exact answer_call nnn s
  | drw x y n => exact answer_withSpan rfl Iff.rfl rfl
  | ldB x => exact answer_withSpan rfl (by simp [Unhindered]) rfl
  | ldMemVx x | ldVxMem x => exact answer_withSpan rfl (by simp [Unhindered, Nat.add_assoc]) rfl
  | skp x | sknp x => exact answer_skipOnKey rfl Iff.rfl rfl
  | cls | jp | seImm | sneImm | seReg | ldImm | addImm | ldReg | orReg | andReg | xorReg | addReg | subReg | shr
  | subnReg | shl | sneReg | ldI | jpV0 | rnd | ldVxDt | ldVxK | ldDtVx | ldStVx | addI | ldF =>
    exact .effect fun _ => trivial

theorem exec_of_unhindered {i : Instr} {s : State} (h : Unhindered i s) : exec i s = .next (effect i s) := by
  have ha := exec_answer i s
  generalize exec i s = o at ha
  cases ha with
  | effect => rfl
  | raised hn => exact absurd h hn
  | outside hn => exact absurd h hn

/-- A next state is the effect, or the instruction's error raised. -/
theorem exec_next_cases {i : Instr} {s t : State} (h : exec i s = .next t) :
    (t = effect i s ∧ (StackSized s → Unhindered i s)) ∨
    ∃ e info, executeError i = some e ∧ errorInfoLegal e info = true ∧ t = raise e info s := by
  have ha := exec_answer i s
  rw [h] at ha
  cases ha with
  | effect hu => exact .inl ⟨rfl, hu⟩
  | raised hn he hinfo => exact .inr ⟨_, _, he, hinfo, rfl⟩

/-! ## The frame of an effect (R20, R42) -/

theorem changesOnly_drawAt (x y : Reg) (n : Nat) (s : State) : ChangesOnly [.v, .fb] s (drawAt x y n s) :=
  ((changesOnly_setFb _ s).mono (by simp)).trans ((changesOnly_setReg _ _ _).mono (by simp))

theorem changesOnly_setPc_setStack (a : Word) (l : List Word) (n : Nat) (s : State) :
    ChangesOnly [.stack, .pc] s (setPc a (setStack l n s)) :=
  ((changesOnly_setStack l n s).mono (by simp)).trans ((changesOnly_setPc a _).mono (by simp))

theorem changesOnly_setReg_setDraws (x : Reg) (b : Byte) (n : Nat) (s : State) :
    ChangesOnly [.v, .draws] s (setReg x b (setDraws n s)) :=
  ((changesOnly_setDraws n s).mono (by simp)).trans ((changesOnly_setReg x b _).mono (by simp))

theorem effect_changesOnly (i : Instr) (s : State) : ChangesOnly (writes i) s (effect i s) := by
  cases i with
  | cls => exact changesOnly_setFb _ s
  | ret | call => exact changesOnly_setPc_setStack _ _ _ s
  | jp | jpV0 => exact changesOnly_setPc _ s
  | seImm | sneImm | seReg | sneReg | skp | sknp => exact changesOnly_skipIf _ s
  | ldImm | addImm | ldReg | orReg | andReg | xorReg | ldVxDt => exact changesOnly_setReg _ _ s
  | addReg | subReg | shr | subnReg | shl => exact changesOnly_setResultFlag _ _ _ s
  | ldI | addI | ldF => exact changesOnly_setI _ s
  | rnd => exact changesOnly_setReg_setDraws _ _ _ s
  | drw => exact changesOnly_drawAt _ _ _ s
  | ldVxK => exact changesOnly_setRun _ s
  | ldDtVx => exact changesOnly_setDt _ s
  | ldStVx => exact changesOnly_setSt _ s
  | ldB | ldMemVx => exact changesOnly_storeBytes _ _ s
  | ldVxMem => exact changesOnly_setV _ s

theorem reg_drawAt_of_ne {x y j : Reg} (n : Nat) (s : State) (hj : j ≠ vf) : reg (drawAt x y n s) j = reg s j := by
  rw [drawAt, reg_setReg_of_ne _ _ hj, reg_setFb]

theorem reg_fetchBlock_of_lt {x j : Reg} (s : State) (hj : x < j) : reg (fetchBlock x s) j = reg s j := by
  have hlen : (loadBytes s s.i.toNat (x.val + 1)).length ≤ j.val := by rw [loadBytes_length]; exact hj
  rw [fetchBlock, reg_setV, loadBlock_getElem, List.getD_eq_default _ _ hlen]
  rfl

theorem reg_effect_of_not_writesReg {i : Instr} {j : Reg} (s : State) (h : writesReg i j = false) :
    reg (effect i s) j = reg s j := by
  cases i with
  | ldImm | addImm | ldReg | orReg | andReg | xorReg | ldVxDt => exact reg_setReg_of_ne _ s (beq_eq_false_iff_ne.1 h)
  | rnd => exact reg_setReg_of_ne _ _ (beq_eq_false_iff_ne.1 h)
  | addReg | subReg | shr | subnReg | shl =>
    obtain ⟨hx, hvf⟩ := Bool.or_eq_false_iff.1 h
    exact reg_setResultFlag_of_ne _ _ s (beq_eq_false_iff_ne.1 hx) (beq_eq_false_iff_ne.1 hvf)
  | drw => exact reg_drawAt_of_ne _ s (beq_eq_false_iff_ne.1 h)
  | ldVxMem x => exact reg_fetchBlock_of_lt s (not_le.1 (of_decide_eq_false h))
  | cls | ret | jp | call | seImm | sneImm | seReg | sneReg | ldI | jpV0 | skp | sknp | ldVxK | ldDtVx | ldStVx
  | addI | ldF | ldB | ldMemVx =>
    exact (effect_changesOnly _ s).2 .v (by simp [writes]) j

theorem effect_run (i : Instr) (s : State) : (effect i s).run = s.run ∨ ∃ x, (effect i s).run = .waitingForKey x := by
  cases i with
  | ldVxK x => exact .inr ⟨x, rfl⟩
  | _ => exact .inl ((effect_changesOnly _ s).2 .run (by simp [writes]))

theorem vf_effect_of_setsFlag {i : Instr} (s : State) (h : setsFlag i = true) :
    ∃ c, reg (effect i s) vf = flagByte c := by
  cases i with
  | addReg | subReg | shr | subnReg | shl => exact ⟨_, reg_setResultFlag_vf _ _ _ s⟩
  | drw => exact ⟨_, reg_setReg_same _ _ _⟩
  | _ => cases h

/-! ## The obligations over all instructions -/

/-- Settles O44: the effect keeps to the summary's parts, and the only other next state is the error raised. -/
theorem changesOnlyListedParts : Obligations.ChangesOnlyListedParts := by
  intro i s t h
  rcases exec_next_cases h with ⟨rfl, -⟩ | ⟨e, info, he, -, rfl⟩
  · exact .inl (effect_changesOnly i s)
  · exact .inr ⟨e, info, he, raisedFrom_raise e info s⟩

/-- Settles O45: the effect leaves the register alone, and an error raised writes no register. -/
theorem otherRegistersUnchanged : Obligations.OtherRegistersUnchanged := by
  intro i s t j h hj
  rcases exec_next_cases h with ⟨rfl, -⟩ | ⟨e, info, -, -, rfl⟩
  · exact reg_effect_of_not_writesReg s hj
  · exact reg_raise e info s j

/-- Settles O46: the effect of the six ends with a write of a `flagByte` to VF. -/
theorem flagIsZeroOrOne : Obligations.FlagIsZeroOrOne := by
  intro i s hflag hu
  obtain ⟨c, hc⟩ := vf_effect_of_setsFlag s hflag
  exact ⟨_, exec_of_unhindered hu, hc ▸ flagByte_cases c⟩

/-- Settles O47: under its condition an instruction answers its effect, which keeps RUN or waits for a key. -/
theorem unhinderedRunsToEffect : Obligations.UnhinderedRunsToEffect := by
  intro i s hu hrun
  refine ⟨_, exec_of_unhindered hu, fun e info hfault => ?_, effect_changesOnly i s⟩
  rcases effect_run i s with h | ⟨x, h⟩
  · rw [h, hrun] at hfault; cases hfault
  · rw [h] at hfault; cases hfault

theorem CoreInv.stackSized {s : State} (h : CoreInv s) : StackSized s := ⟨h.stackSize, h.stackPointer⟩

/-- Settles O48: of the three answers the effect needs the condition, and the model's fault a stack of another size. -/
theorem hinderedRaises : Obligations.HinderedRaises := by
  intro i s hinv hn
  have ha := exec_answer i s
  generalize exec i s = o at ha
  cases ha with
  | effect hu => exact absurd (hu hinv.stackSized) hn
  | raised _ he hinfo => exact ⟨_, _, _, he, hinfo, rfl, raisedFrom_raise _ _ s⟩
  | outside _ hs => exact absurd hinv.stackSized hs

end Sys2Proof.Safety

/-! PROOFS. Spec 10_state and 60_exceptions: the invariant of the core at reset and along a step (R27, R28, R125,
R220). -/

namespace Sys2Proof.Machine

/-- Two bytes past an address of memory no bit of a 16-bit PC is lost. -/
theorem toNat_add_two {a : Word} (h : a.toNat ≤ 0x1000) : (a + 2).toNat = a.toNat + 2 :=
  BitVec.toNat_add_of_lt (show a.toNat + 2 < 2 ^ 16 by omega)

theorem toNat_advancePc {s : State} (hpc : s.pc.toNat ≤ 4094) : (advancePc s).pc.toNat = s.pc.toNat + 2 :=
  toNat_add_two (by omega)

end Sys2Proof.Machine

namespace Sys2Proof.Safety

open Sys2Proof.Machine

/-! ## What each field write needs to keep the invariant -/

section Writes

variable {s : State} (h : CoreInv s)
include h

theorem CoreInv.after_setV (v : Vector Byte 16) : CoreInv (setV v s) := { h with }
theorem CoreInv.after_setReg (x : Reg) (b : Byte) : CoreInv (setReg x b s) := { h with }
theorem CoreInv.after_setResultFlag (x : Reg) (r : Byte) (c : Bool) : CoreInv (setResultFlag x r c s) := { h with }
theorem CoreInv.after_setI (a : Word) : CoreInv (setI a s) := { h with }
theorem CoreInv.after_setDt (b : Byte) : CoreInv (setDt b s) := { h with }
theorem CoreInv.after_setSt (b : Byte) : CoreInv (setSt b s) := { h with }
theorem CoreInv.after_setFb (f : Frame) : CoreInv (setFb f s) := { h with }
theorem CoreInv.after_setKeys (k : Vector Bool 16) : CoreInv (setKeys k s) := { h with }
theorem CoreInv.after_setDraws (n : Nat) : CoreInv (setDraws n s) := { h with }

theorem CoreInv.after_setPc {a : Word} (ha : a.toNat ≤ 0x10FE) : CoreInv (setPc a s) := { h with pcRange := ha }

theorem CoreInv.after_setRun {r : RunState} (hr : runLegal r = true) : CoreInv (setRun r s) := { h with run := hr }

theorem CoreInv.after_raise {e : ErrorKind} {info : Word} (hinfo : errorInfoLegal e info = true) :
    CoreInv (raise e info s) := h.after_setRun hinfo

theorem CoreInv.after_storeBytes {a : Nat} {l : List Byte} (ha : a + l.length ≤ memSize) :
    CoreInv (storeBytes a l s) := by
  rw [storeBytes_eq_setMem]
  exact { h with memory := storeBytes_memWf ha h.memory }

theorem CoreInv.after_setStack {l : List Word} {n : Nat} (hl : l.length = s.stack.length) (hn : n ≤ s.cfg.stackDepth)
    (hlive : ∀ a ∈ l.take n, 2 ≤ a.toNat ∧ a.toNat ≤ 0x1000) : CoreInv (setStack l n s) :=
  { h with stackSize := hl.trans h.stackSize, stackPointer := hn, liveEntries := hlive }

/-- R122: the entries that stay in use were in use. -/
theorem CoreInv.after_pop : CoreInv (setStack s.stack (s.sp - 1) s) := by
  have hsp := h.stackPointer
  refine h.after_setStack rfl (by omega) fun a ha => h.liveEntries a ?_
  exact (List.take_subset_take_left s.stack (Nat.sub_le _ _)) ha

/-- R125: the new entry in use is the advanced PC. -/
theorem CoreInv.after_push {a : Word} (hlt : s.sp < s.cfg.stackDepth) (hlo : 2 ≤ a.toNat) (hhi : a.toNat ≤ 0x1000) :
    CoreInv (setStack (s.stack.set s.sp a) (s.sp + 1) s) := by
  refine h.after_setStack (List.length_set ..) hlt fun b hb => ?_
  have hlen : s.sp < s.stack.length := h.stackSize ▸ hlt
  rw [List.take_succ_eq_append_getElem (by simpa using hlen), List.take_set_of_le (le_refl _),
    List.getElem_set_self, List.mem_append, List.mem_singleton] at hb
  rcases hb with hb | rfl
  · exact h.liveEntries b hb
  · exact ⟨hlo, hhi⟩

/-- R122: the entry that RET pops is a return address. -/
theorem CoreInv.top_le (hsp : 0 < s.sp) : (s.stack.getD (s.sp - 1) 0).toNat ≤ 0x1000 := by
  have hle := h.stackPointer
  have hlt : s.sp - 1 < s.stack.length := by rw [h.stackSize]; omega
  rw [List.getD_eq_getElem _ _ hlt]
  refine (h.liveEntries _ ?_).2
  exact List.mem_take_iff_getElem.2 ⟨s.sp - 1, by omega, rfl⟩

theorem CoreInv.after_skipIf (c : Bool) (hpc : s.pc.toNat ≤ 0x1000) : CoreInv (skipIf c s) := by
  rw [skipIf_eq]
  refine h.after_setPc ?_
  have := toNat_add_two hpc
  split <;> omega

theorem CoreInv.after_advancePc (hpc : s.pc.toNat ≤ 4094) : CoreInv (advancePc s) :=
  h.after_skipIf true (by omega)

end Writes

/-- An effect keeps the invariant once the fetch has advanced PC, which is then a return address (R125). -/
theorem CoreInv.after_effect {s : State} (h : CoreInv s) {i : Instr} (hu : Unhindered i s) (hlo : 2 ≤ s.pc.toNat)
    (hhi : s.pc.toNat ≤ 0x1000) : CoreInv (effect i s) := by
  cases i with
  | cls => exact h.after_setFb _
  | ret => exact h.after_pop.after_setPc (le_trans (h.top_le hu.1) (by decide))
  | call nnn =>
    refine (h.after_push hu.1 hlo hhi).after_setPc ?_
    rw [addrOperand_toNat]; omega
  | jp nnn => refine h.after_setPc ?_; rw [addrOperand_toNat]; omega
  | jpV0 nnn => refine h.after_setPc ?_; rw [offsetTarget_toNat]; omega
  | seImm | sneImm | seReg | sneReg | skp | sknp => exact h.after_skipIf _ hhi
  | ldImm | addImm | ldReg | orReg | andReg | xorReg | ldVxDt => exact h.after_setReg _ _
  | addReg | subReg | shr | subnReg | shl => exact h.after_setResultFlag _ _ _
  | ldI | addI | ldF => exact h.after_setI _
  | rnd => exact (h.after_setDraws _).after_setReg _ _
  | drw => exact (h.after_setFb _).after_setReg _ _
  | ldVxK => exact h.after_setRun rfl
  | ldDtVx => exact h.after_setDt _
  | ldStVx => exact h.after_setSt _
  | ldB => exact h.after_storeBytes hu
  | ldMemVx => exact h.after_storeBytes (by rw [regBlock_length]; exact hu)
  | ldVxMem => exact h.after_setV _

theorem CoreInv.after_exec {s t : State} (h : CoreInv s) {i : Instr} (hlo : 2 ≤ s.pc.toNat) (hhi : s.pc.toNat ≤ 0x1000)
    (ht : exec i s = .next t) : CoreInv t := by
  rcases exec_next_cases ht with ⟨rfl, hu⟩ | ⟨e, info, -, hinfo, rfl⟩
  · exact h.after_effect (hu h.stackSized) hlo hhi
  · exact h.after_raise hinfo

theorem CoreInv.exec_answers {s : State} (h : CoreInv s) (i : Instr) : ∃ t, exec i s = .next t := by
  have ha := exec_answer i s
  generalize exec i s = o at ha
  cases ha with
  | effect | raised => exact ⟨_, rfl⟩
  | outside _ hs => exact absurd h.stackSized hs

theorem CoreInv.after_step {s t : State} (h : CoreInv s) (ht : step s = .next t) : CoreInv t := by
  rcases step_cases s with ⟨-, hs⟩ | ⟨-, -, hs⟩ | ⟨-, hpc, w, -, hw, hs⟩ | ⟨-, hpc, w, i, -, -, hs⟩ <;> rw [hs] at ht
  · cases ht; exact h
  · cases ht; exact h.after_raise (lowestBad_legal s.pc)
  · cases ht; exact (h.after_advancePc hpc).after_raise (decide_eq_true hw)
  · have := toNat_advancePc hpc
    exact (h.after_advancePc hpc).after_exec (by omega) (by omega) ht

theorem CoreInv.step_answers {s : State} (h : CoreInv s) : ∃ t, step s = .next t := by
  rcases step_cases s with ⟨-, hs⟩ | ⟨-, -, hs⟩ | ⟨-, -, w, -, -, hs⟩ | ⟨-, hpc, w, i, -, -, hs⟩ <;> rw [hs]
  · exact ⟨_, rfl⟩
  · exact ⟨_, rfl⟩
  · exact ⟨_, rfl⟩
  · exact (h.after_advancePc hpc).exec_answers i

theorem coreInv_resetWith {c : Config} (hc : c.wf = true) : CoreInv (State.resetWith c) where
  config := hc
  memory := reset_memWf c
  stackSize := List.length_replicate
  stackPointer := Nat.zero_le _
  liveEntries := by simp [State.resetWith]
  pcRange := by show (BitVec.ofNat 16 programBase).toNat ≤ 0x10FE; decide
  run := rfl

/-- Settles O50: a fresh core has no live entry and no listed cell. -/
theorem resetMeetsInvariant : Obligations.ResetMeetsInvariant := coreInv_resetWith (by decide)

/-- Settles O51: a step that executes does so with PC advanced into 2 to 0x1000, where every effect keeps the invariant;
a raise records a legal `info`. -/
theorem stepKeepsInvariant : Obligations.StepKeepsInvariant := fun _ _ h ht => h.after_step ht

/-- Settles O52: of what a step can do only an instruction could fault, and with a sized stack none does. -/
theorem stepAnswersNext : Obligations.StepAnswersNext := fun _ h => h.step_answers

end Sys2Proof.Safety

/-! PROOFS. Spec 10_state section 6: no instruction but LD ST, Vx reads or writes ST (R30, R203). -/

namespace Sys2Proof.Machine

/-- The outcome with a change made to its next state. -/
def mapNext (f : State → State) : Host.Outcome State Fault Refusal → Host.Outcome State Fault Refusal
  | .next s => .next (f s)
  | .fault r => .fault r
  | .refused r => .refused r

theorem storeBytes_setSt (a : Nat) (l : List Byte) (b : Byte) (s : State) :
    storeBytes a l (setSt b s) = setSt b (storeBytes a l s) := by
  induction l generalizing a s with
  | nil => rfl
  | cons c t ih => exact ih (a + 1) (setByte a c s)

theorem drawAt_setSt (x y : Reg) (n : Nat) (b : Byte) (s : State) :
    drawAt x y n (setSt b s) = setSt b (drawAt x y n s) := rfl

theorem fetchBlock_setSt (x : Reg) (b : Byte) (s : State) : fetchBlock x (setSt b s) = setSt b (fetchBlock x s) := rfl

theorem skipIf_setSt (c : Bool) (b : Byte) (s : State) : skipIf c (setSt b s) = setSt b (skipIf c s) := by
  cases c <;> rfl

theorem skipOnKey_setSt (x : Reg) (wanted : Bool) (b : Byte) (s : State) :
    skipOnKey x wanted (setSt b s) = setSt b (skipOnKey x wanted s) := by
  rw [skipOnKey, skipOnKey, reg_setSt]
  cases keyOperand (reg s x) with
  | none => rfl
  | some k => exact skipIf_setSt _ b s

theorem withSpan_setSt {act : State → State} {b : Byte} {s : State} (len : Nat)
    (hact : act (setSt b s) = setSt b (act s)) :
    withSpan len (setSt b s) act = setSt b (withSpan len s act) := by
  rw [withSpan, withSpan, setSt_i]
  cases badSpan s.i len with
  | none => exact hact
  | some a => rfl

theorem execRet_setSt (b : Byte) (s : State) : execRet (setSt b s) = mapNext (setSt b) (execRet s) := by
  rcases execRet_cases s with ⟨hsp, h⟩ | ⟨hsp, a, ha, h⟩ | ⟨hsp, hnone, h⟩ <;> rw [h]
  · exact execRet_empty (s := setSt b s) hsp
  · exact execRet_entry (s := setSt b s) hsp ha
  · exact execRet_outside (s := setSt b s) hsp hnone

theorem execCall_setSt (nnn : Addr) (b : Byte) (s : State) :
    execCall nnn (setSt b s) = mapNext (setSt b) (execCall nnn s) := by
  rcases execCall_cases nnn s with ⟨hsp, h⟩ | ⟨hsp, hlt, h⟩ | ⟨hsp, hout, h⟩ <;> rw [h]
  · exact execCall_full (s := setSt b s) nnn hsp
  · exact execCall_room (s := setSt b s) nnn hsp hlt
  · exact execCall_outside (s := setSt b s) nnn hsp hout

theorem exec_setSt {i : Instr} (hi : ∀ x, i ≠ .ldStVx x) (b : Byte) (s : State) :
    exec i (setSt b s) = mapNext (setSt b) (exec i s) := by
  cases i with
  | ldStVx x => exact absurd rfl (hi x)
  | ret => exact execRet_setSt b s
  | call nnn => exact execCall_setSt nnn b s
  | seImm | sneImm | seReg | sneReg => exact congrArg _ (skipIf_setSt _ b s)
  | skp | sknp => exact congrArg _ (skipOnKey_setSt _ _ b s)
  | drw x y n => exact congrArg Host.Outcome.next (withSpan_setSt n.toNat (drawAt_setSt x y n.toNat b s))
  | ldB x => exact congrArg Host.Outcome.next (withSpan_setSt 3 (storeBytes_setSt _ _ b s))
  | ldMemVx x => exact congrArg Host.Outcome.next (withSpan_setSt (x.val + 1) (storeBytes_setSt _ _ b s))
  | ldVxMem x => exact congrArg Host.Outcome.next (withSpan_setSt (x.val + 1) (fetchBlock_setSt x b s))
  | cls | jp | ldImm | addImm | ldReg | orReg | andReg | xorReg | addReg | subReg | shr | subnReg | shl | ldI | jpV0
  | rnd | ldVxDt | ldVxK | ldDtVx | addI | ldF => rfl

end Sys2Proof.Machine

namespace Sys2Proof.Safety

open Sys2Proof.Machine

/-- Settles O49: `exec` commutes with a change of ST, whatever it answers. -/
theorem soundTimerIsNeverRead : Obligations.SoundTimerIsNeverRead := by
  intro i s b hi
  rw [exec_setSt hi]
  exact ⟨fun t h => by rw [h]; rfl, fun r h => by rw [h]; rfl⟩

end Sys2Proof.Safety

/-! PROOFS. Spec 40_step_control_flow: the step cycle (R120, R121, R132), RET and CALL (R122, R125), and the jump to its
own address (R123). -/

namespace Sys2Proof.Machine

/-- R120: a running core whose fetch gives a word that decodes executes the instruction with PC advanced. -/
theorem step_of_decode {s : State} {w : Word} {i : Instr} (hrun : s.run = .running) (hf : fetchWord s = .ok w)
    (hd : decode w = some i) : step s = exec i (setPc (s.pc + 2) s) := by
  simp only [step_of_running hrun, fetchAndRun, hf, runWord, hd, advancePc_eq]

/-- R120, R222: a word that does not decode raises with PC advanced. -/
theorem step_of_invalid {s : State} {w : Word} (hrun : s.run = .running) (hf : fetchWord s = .ok w)
    (hd : decode w = none) : step s = .next (raise .invalidOpcode w (setPc (s.pc + 2) s)) := by
  simp only [step_of_running hrun, fetchAndRun, hf, runWord, hd, advancePc_eq]

/-- R121: a fetch that cannot complete raises and leaves PC. -/
theorem step_of_fetch_error {s : State} {a : Word} (hrun : s.run = .running) (hf : fetchWord s = .error a) :
    step s = .next (raise .memoryAccessOutOfRange a s) := by
  simp only [step_of_running hrun, fetchAndRun, hf]

theorem setPc_setPc (a b : Word) (s : State) : setPc a (setPc b s) = setPc a s := rfl

theorem setPc_self (s : State) : setPc s.pc s = s := rfl

end Sys2Proof.Machine

namespace Sys2Proof.Safety

open Sys2Proof.Machine

/-- Settles O7: the fetch gives the word, and the cycle executes what it decodes to. -/
theorem stepRunsDecodedInstruction : Obligations.StepRunsDecodedInstruction := fun _ _ hrun hpc hd =>
  step_of_decode hrun (fetchWord_ok hpc) hd

/-- Settles O8: the fetch reports the lowest bad address, and the raise comes before the advance. -/
theorem fetchAboveMemoryRaises : Obligations.FetchAboveMemoryRaises := fun s hrun hpc =>
  ⟨_, _, step_of_fetch_error hrun (fetchWord_error hpc), toNat_lowestBad s.pc, raise_pc _ _ s, raisedFrom_raise _ _ s⟩

theorem decode_eq_none_of_not_listed {w : Word} (h : wordListed w = false) : decode w = none := by
  rw [← Option.not_isSome_iff_eq_none, decodeAcceptsOpcodeMap w, h]
  exact Bool.false_ne_true

/-- Settles O9: a word that no row selects does not decode, so the step is one raise on the advanced PC. -/
theorem unlistedWordRaises : Obligations.UnlistedWordRaises := by
  rintro s w hrun hpc rfl hw
  refine ⟨_, step_of_invalid hrun (fetchWord_ok hpc) (decode_eq_none_of_not_listed hw), raise_run _ _ _,
    raise_pc _ _ _, ?frame⟩
  case frame =>
    exact ((changesOnly_setPc _ s).mono (by simp)).trans ((raisedFrom_raise _ _ _).2.mono (by simp))

/-- Settles O10: only a running core fetches. -/
theorem stepHoldsUnlessRunning : Obligations.StepHoldsUnlessRunning := fun _ => step_of_not_running

/-- Settles O12: placing makes the core run and its next fetch read the word. -/
theorem placedWordRuns : Obligations.PlacedWordRuns := by
  intro s nbits w i hwf hd
  rw [decodeTableWord_eq] at hd
  exact step_of_decode (placeWord_run _ s) (fetchWord_placeWord (rising_of_memWf hwf)) hd

/-- Settles O13: RET is one `raise`, or one `setStack` that lowers SP and one `setPc` to the entry it leaves. -/
theorem returnPopsStack : Obligations.ReturnPopsStack := by
  intro s
  refine ⟨fun hempty => ⟨_, execRet_empty hempty, raisedFrom_raise _ _ s⟩, fun hsp hle => ?entry⟩
  case entry =>
    have hentry : s.stack[s.sp - 1]? = some s.stack[s.sp - 1] := List.getElem?_eq_getElem (by omega)
    exact ⟨_, execRet_entry hsp hentry, Nat.sub_add_cancel hsp, hentry, rfl, changesOnly_setPc_setStack _ _ _ s⟩

/-- Settles O14: CALL is one `raise`, or one `setStack` that writes the entry at SP and one `setPc`. -/
theorem callPushesPc : Obligations.CallPushesPc := by
  intro nnn s hlen
  refine ⟨fun hfull => ⟨_, execCall_full nnn hfull, raisedFrom_raise _ _ s⟩, fun hlt => ?room⟩
  case room =>
    have hroom : s.sp < s.stack.length := hlen ▸ hlt
    exact ⟨_, execCall_room nnn (Nat.ne_of_lt hlt) hroom, rfl, List.getElem?_set_self hroom,
      fun j hj => List.getElem?_set_ne hj.symm, addrOperand_toNat nnn, changesOnly_setPc_setStack _ _ _ s⟩

/-- Settles O17: the entry RET pops is the one CALL pushed, which lies above the entries in use before. -/
theorem callThenReturn : Obligations.CallThenReturn := by
  intro nnn s hlen hlt
  have hroom : s.sp < s.stack.length := hlen ▸ hlt
  have hpushed : (s.stack.set s.sp s.pc)[s.sp + 1 - 1]? = some s.pc := List.getElem?_set_self hroom
  refine ⟨_, _, execCall_room nnn (Nat.ne_of_lt hlt) hroom, execRet_entry (Nat.succ_pos s.sp) hpushed, rfl, rfl, ?live,
    fun j hj => List.getElem?_set_ne hj.symm, ?frame⟩
  case live => exact List.take_set_of_le (le_refl s.sp)
  case frame => exact changesOnly_setStack (s.stack.set s.sp s.pc) s.sp s

/-- Settles O18: the jump writes over the advanced PC the value it had before. -/
theorem selfJumpChangesNothing : Obligations.SelfJumpChangesNothing := by
  intro nnn s hrun hpc hself hword
  have hd : decode (wordOfBytes (byteAt s s.pc.toNat) (byteAt s (s.pc.toNat + 1))) = some (.jp nnn) := by
    rw [hword, decode_encode]
  have htarget : addrOperand nnn = s.pc := BitVec.eq_of_toNat_eq (by rw [addrOperand_toNat, hself])
  rw [step_of_decode hrun (fetchWord_ok hpc) hd, exec_jp, htarget, setPc_setPc, setPc_self]

end Sys2Proof.Safety

/-! PROOFS. The random byte (R143), the index add (R204) and the keypad instructions (R190 to R193). -/

namespace Sys2Proof.Safety

open Sys2Proof.Machine

/-- Settles O21: the arm is one `setReg` of the masked byte after one `setDraws`. -/
theorem randomByteIsMasked : Obligations.RandomByteIsMasked := by
  intro x kk s
  refine ⟨_, exec_rnd x kk s, fun b => ?masked, rfl, fun j hj => ?others, changesOnly_setReg_setDraws x _ _ s⟩
  case masked => rw [reg_setReg_same, BitVec.getLsbD_and]
  case others => rw [reg_setReg_of_ne _ _ hj, reg_setDraws]

/-- Settles O33: the arm is one `setI` of a sum reduced to 16 bits. -/
theorem indexAdd : Obligations.IndexAdd := fun x s =>
  ⟨_, exec_addI x s, indexSum_toNat s.i (reg s x), changesOnly_setI _ s⟩

theorem skipOnKey_of_key {x : Reg} {k : Key} {s : State} (wanted : Bool) (h : (reg s x).toNat = k.val) :
    skipOnKey x wanted s = skipIf (s.keys[k] == wanted) s := by
  rw [skipOnKey, keyOperand_some h]

theorem skipOnKey_of_no_key {x : Reg} {s : State} (wanted : Bool) (h : 15 < (reg s x).toNat) :
    skipOnKey x wanted s = raise .keyIndexOutOfRange ((reg s x).zeroExtend 16) s := by
  rw [skipOnKey, keyOperand_none h]

/-- Settles O29: both skips are one `skipIf` on the key's state, or one `raise` with the value of `Vx`. -/
theorem keySkips : Obligations.KeySkips := by
  intro x s
  refine ⟨fun k hk => ⟨?skp, ?sknp⟩, fun hbig => ⟨(reg s x).zeroExtend 16, ?info, ?skpRaises, ?sknpRaises⟩⟩
  case skp =>
    rw [exec_skp, skipOnKey_of_key true hk]
    exact ⟨_, rfl, by rw [skipIf_pc, beq_true], changesOnly_skipIf _ s⟩
  case sknp =>
    rw [exec_sknp, skipOnKey_of_key false hk]
    refine ⟨_, rfl, ?_, changesOnly_skipIf _ s⟩
    rw [skipIf_pc]
    cases s.keys[k] <;> rfl
  case info => exact BitVec.toNat_setWidth_of_le (by decide)
  case skpRaises =>
    rw [exec_skp, skipOnKey_of_no_key true hbig]
    exact ⟨_, rfl, raisedFrom_raise _ _ s⟩
  case sknpRaises =>
    rw [exec_sknp, skipOnKey_of_no_key false hbig]
    exact ⟨_, rfl, raisedFrom_raise _ _ s⟩

end Sys2Proof.Safety

/-! PROOFS. Spec 43_display section 2: DRW (R176 to R178). -/

namespace Sys2Proof.Machine

open Sys2Proof.Safety

/-- The rows DRW reads cover the wrapped sprite mask of R177. -/
theorem rowsMask_loadBytes (s : State) (ox oy n : Nat) (y : Fin 32) (x : Fin 64) :
    rowsMask ox oy (loadBytes s s.i.toNat n) y x = spriteMask s ox oy n y x := by
  rw [Bool.eq_iff_iff]
  simp only [rowsMask, rowMask, spriteMask, loadBytes_length, List.any_eq_true, List.mem_range, Bool.and_eq_true,
    decide_eq_true_eq]
  refine exists_congr fun r => and_congr_right fun hr => ?_
  rw [loadBytes_getD hr, ← exists_and_left]
  simp only [and_assoc, and_left_comm]

theorem wrapX_eq_iff (k : Nat) (x : Fin 64) : wrapX (k : Int) = x ↔ k % 64 = x.val := by
  rw [Fin.ext_iff, wrapX_natCast]

theorem wrapY_eq_iff (k : Nat) (y : Fin 32) : wrapY (k : Int) = y ↔ k % 32 = y.val := by
  rw [Fin.ext_iff, wrapY_natCast]

/-- A draw erases a pixel exactly when some pixel under its mask was ON. -/
theorem rowsHit_iff (f : Frame) (ox oy : Nat) (rows : List Byte) :
    rowsHit f ox oy rows = true ↔ ∃ y x, pixelAt f y x = true ∧ rowsMask ox oy rows y x = true := by
  simp only [rowsHit, rowHits, rowsMask, rowMask, List.any_eq_true, Bool.and_eq_true, decide_eq_true_eq,
    ← wrapX_eq_iff, ← wrapY_eq_iff]
  constructor
  · rintro ⟨r, hr, c, hc, hbit, hon⟩
    exact ⟨_, _, hon, r, hr, rfl, c, hc, rfl, hbit⟩
  · rintro ⟨y, x, hon, r, hr, rfl, c, hc, rfl, hbit⟩
    exact ⟨r, hr, c, hc, hbit, hon⟩

section DrawAt

variable (x y : Reg) {n : Nat} (s : State) (hn : n ≤ 32)
include hn

theorem pixelAt_drawAt (py : Fin 32) (px : Fin 64) : pixelAt (drawAt x y n s).fb py px =
    (pixelAt s.fb py px ^^ spriteMask s (reg s x).toNat (reg s y).toNat n py px) := by
  have hlen : (loadBytes s s.i.toNat n).length ≤ 32 := (loadBytes_length s _ n).le.trans hn
  rw [← rowsMask_loadBytes]
  exact (drawSprite_spec _ _ _ (s.fb, false) hlen).1 py px

theorem reg_drawAt_vf : reg (drawAt x y n s) vf = if ∃ py px, pixelAt s.fb py px = true ∧
    spriteMask s (reg s x).toNat (reg s y).toNat n py px = true then 1 else 0 := by
  have hlen : (loadBytes s s.i.toNat n).length ≤ 32 := (loadBytes_length s _ n).le.trans hn
  have hhit := (drawSprite_spec (reg s x).toNat (reg s y).toNat _ (s.fb, false) hlen).2
  rw [drawAt, reg_setReg_same, hhit, Bool.false_or, flagByte]
  refine if_congr ?_ rfl rfl
  simp only [rowsHit_iff, rowsMask_loadBytes]

end DrawAt

/-- A draw writes neither I nor memory, from which a sprite is read. -/
theorem spriteMask_drawAt (x y : Reg) (n : Nat) (s : State) (ox oy m : Nat) :
    spriteMask (drawAt x y n s) ox oy m = spriteMask s ox oy m := rfl

theorem exists_getLsbD_of_ne_zero {b : Byte} (h : b ≠ 0) : ∃ col, col < 8 ∧ b.getLsbD (7 - col) = true := by
  by_contra hnone
  refine h (BitVec.eq_of_getLsbD_eq fun i hi => ?_)
  have hbit : b.getLsbD i = false := Bool.eq_false_iff.2 fun hbit =>
    hnone ⟨7 - i, by omega, by rwa [Nat.sub_sub_self (by omega)]⟩
  exact hbit.trans BitVec.getLsbD_zero.symm

/-- Some pixel is under the mask exactly when some row of the sprite is not 0. -/
theorem exists_spriteMask_iff (s : State) (ox oy n : Nat) :
    (∃ y x, spriteMask s ox oy n y x = true) ↔ ∃ row, row < n ∧ byteAt s (s.i.toNat + row) ≠ 0 := by
  simp only [spriteMask, List.any_eq_true, List.mem_range, Bool.and_eq_true, decide_eq_true_eq]
  constructor
  · rintro ⟨_, _, row, hrow, col, -, -, hbit⟩
    refine ⟨row, hrow, fun hzero => ?_⟩
    rw [hzero] at hbit
    exact Bool.false_ne_true (BitVec.getLsbD_zero.symm.trans hbit)
  · rintro ⟨row, hrow, hne⟩
    obtain ⟨col, hcol, hbit⟩ := exists_getLsbD_of_ne_zero hne
    exact ⟨wrapY ((oy + row : Nat) : Int), wrapX ((ox + col : Nat) : Int), row, hrow, col, hcol,
      ⟨(wrapY_natCast _).symm, (wrapX_natCast _).symm⟩, hbit⟩

/-- R67: what an instruction that reads or writes past 4095 answers. -/
theorem withSpan_raisedFrom {len : Nat} {s : State} (act : State → State) (hlen : 0 < len)
    (h : 4096 < s.i.toNat + len) :
    ∃ info : Word, info.toNat = max s.i.toNat 4096 ∧
      RaisedFrom .memoryAccessOutOfRange info s (withSpan len s act) := by
  rw [withSpan_raises (by omega)]
  exact ⟨_, toNat_lowestBad s.i, raisedFrom_raise _ _ s⟩

end Sys2Proof.Machine

namespace Sys2Proof.Safety

open Sys2Proof.Machine

theorem exec_drw_of_fits (x y : Reg) {n : Nibble} {s : State} (h : n.toNat = 0 ∨ s.i.toNat + n.toNat ≤ 4096) :
    exec (.drw x y n) s = .next (drawAt x y n.toNat s) := by
  rw [exec_drw, withSpan_fits h]

/-- Settles O26: at most 15 rows fall on rows of the frame that are distinct modulo 32, so that drawing them one after
another xors their mask in once. -/
theorem drawXorsWrappedMask : Obligations.DrawXorsWrappedMask := by
  intro x y n s h
  have hn : n.toNat ≤ 32 := by omega
  exact ⟨_, exec_drw_of_fits x y h, pixelAt_drawAt x y s hn, reg_drawAt_vf x y s hn,
    fun _ hj => reg_drawAt_of_ne _ s hj, changesOnly_drawAt x y _ s⟩

/-- Settles O27: the first draw leaves the second its coordinates, I and memory, hence the same mask, which cancels; a
cleared frame holds after the first draw just the mask. -/
theorem drawTwiceRestores : Obligations.DrawTwiceRestores := by
  intro x y n s hx hy h
  have hn : n.toNat ≤ 32 := by omega
  have hfirst := pixelAt_drawAt x y s hn
  have hsecond := pixelAt_drawAt x y (drawAt x y n.toNat s) hn
  have hflag := reg_drawAt_vf x y (drawAt x y n.toNat s) hn
  rw [reg_drawAt_of_ne _ s hx, reg_drawAt_of_ne _ s hy, spriteMask_drawAt] at hflag hsecond
  refine ⟨_, _, exec_drw_of_fits x y h, exec_drw_of_fits x y h, fun py px => ?restores,
    fun hclear => ⟨?vfAfterFirst, ?vfAfterSecond⟩⟩
  case restores => rw [hsecond, hfirst, Bool.xor_assoc, Bool.xor_self, Bool.xor_false]
  case vfAfterFirst =>
    rw [reg_drawAt_vf x y s hn]
    exact if_neg fun ⟨py, px, hon, _⟩ => Bool.false_ne_true ((hclear py px).symm.trans hon)
  case vfAfterSecond =>
    rw [hflag]
    refine if_congr ?_ rfl rfl
    simp only [hfirst, hclear, Bool.false_xor, and_self]
    exact exists_spriteMask_iff s _ _ n.toNat

/-- Settles O28: the check of the span comes before the draw. -/
theorem drawPastMemoryRaises : Obligations.DrawPastMemoryRaises := by
  intro x y n s hn hpast
  obtain ⟨info, hinfo, hraised⟩ := withSpan_raisedFrom (drawAt x y n.toNat) hn hpast
  exact ⟨_, info, exec_drw x y n s, hinfo, hraised⟩

end Sys2Proof.Safety

/-! PROOFS. Spec 20_memory and 45_timer_index_memory: the canonical form, the stores and loads through I (R206 to R209),
what the next fetch sees of a store (R75), the ROM image (R77, R263) and what reset leaves (R40, R260). -/

namespace Sys2Proof.Machine

open Sys2Proof.Safety

/-! ## The canonical form -/

theorem memWf_cons {c : Config} {e : Host.Cell} {m : List Host.Cell} (h : memWf c (e :: m) = true) :
    memWf c m = true ∧ allAbove e.1 m ∧ e.2 ≠ background c e.1 := by
  simp only [memWf, List.all_cons, Bool.and_eq_true, decide_eq_true_eq, bne_iff_ne] at h ⊢
  obtain ⟨hrise, ⟨-, hne⟩, hall⟩ := h
  obtain ⟨hm, habove⟩ := rising_cons hrise
  exact ⟨⟨hm, hall⟩, habove, hne⟩

theorem lookupCell_cons_self (bg : Byte) (a : Nat) (b : Byte) (m : List Host.Cell) :
    lookupCell bg a ((a, b) :: m) = b := if_pos rfl

theorem lookupCell_cons_of_ne (bg : Byte) {a k : Nat} (b : Byte) (m : List Host.Cell) (h : k ≠ a) :
    lookupCell bg a ((k, b) :: m) = lookupCell bg a m := if_neg h

/-- A memory that reads the same as a canonical one has a cell at or before the other's first. -/
theorem not_allAbove_of_reads {c : Config} {a : Nat} {b : Byte} {m m' : List Host.Cell}
    (h : memWf c ((a, b) :: m) = true)
    (hreads : lookupCell (background c a) a ((a, b) :: m) = lookupCell (background c a) a m') : ¬allAbove a m' := by
  intro habove
  obtain ⟨-, -, hne⟩ := memWf_cons h
  rw [lookupCell_cons_self, lookupCell_of_allAbove habove] at hreads
  exact hne hreads

theorem eq_of_reads {c : Config} {m m' : List Host.Cell} (h : memWf c m = true) (h' : memWf c m' = true)
    (hreads : ∀ a, lookupCell (background c a) a m = lookupCell (background c a) a m') : m = m' := by
  induction m generalizing m' with
  | nil =>
    cases m' with
    | nil => rfl
    | cons e t => exact absurd (by simp [allAbove]) (not_allAbove_of_reads h' (hreads e.1).symm)
  | cons e t ih =>
    obtain ⟨a, b⟩ := e
    obtain ⟨ht, habove, -⟩ := memWf_cons h
    cases m' with
    | nil => exact absurd (by simp [allAbove]) (not_allAbove_of_reads h (hreads a))
    | cons e' t' =>
      obtain ⟨a', b'⟩ := e'
      obtain ⟨ht', habove', -⟩ := memWf_cons h'
      have hle : ¬a < a' := fun hlt => not_allAbove_of_reads h (hreads a)
        (List.forall_mem_cons.2 ⟨hlt, allAbove_trans hlt habove'⟩)
      have hge : ¬a' < a := fun hlt => not_allAbove_of_reads h' (hreads a').symm
        (List.forall_mem_cons.2 ⟨hlt, allAbove_trans hlt habove⟩)
      obtain rfl : a = a' := by omega
      have hb : b = b' := by simpa only [lookupCell_cons_self] using hreads a
      have htail : t = t' := ih ht ht' fun k => by
        by_cases hk : a = k
        · subst hk
          rw [lookupCell_of_allAbove habove, lookupCell_of_allAbove habove']
        · simpa only [lookupCell_cons_of_ne _ _ _ hk] using hreads k
      rw [hb, htail]

/-! ## Bytes stored -/

section Stores

variable {s : State} {a : Nat} {bytes : List Byte} (hm : rising s.mem = true)
include hm

theorem byteAt_storeBytes_of_mem {k : Nat} (hk : k < bytes.length) :
    byteAt (storeBytes a bytes s) (a + k) = bytes[k] := by
  rw [byteAt_storeBytes hm, if_pos (by omega), Nat.add_sub_cancel_left, List.getD_eq_getElem _ _ hk]

theorem byteAt_storeBytes_of_not_mem {k : Nat} (hk : k < a ∨ a + bytes.length ≤ k) :
    byteAt (storeBytes a bytes s) k = byteAt s k := by
  rw [byteAt_storeBytes hm, if_neg (by omega)]

/-- R75: the fetch from the state after the store reads what `StoreSeenByFetch` says. -/
theorem storeSeenByFetch_storeBytes : StoreSeenByFetch s a bytes (byteAt (storeBytes a bytes s) s.pc.toNat)
    (byteAt (storeBytes a bytes s) (s.pc.toNat + 1)) := by
  have hstored {k : Nat} {b : Byte} (hkb : bytes[k]? = some b) : byteAt (storeBytes a bytes s) (a + k) = b := by
    obtain ⟨hk, rfl⟩ := List.getElem?_eq_some_iff.1 hkb
    exact byteAt_storeBytes_of_mem hm hk
  refine ⟨fun k b hkb => ⟨fun hpc => ?_, fun hpc => ?_⟩, byteAt_storeBytes_of_not_mem hm,
    byteAt_storeBytes_of_not_mem hm⟩
  · rw [← hpc, hstored hkb]
  · rw [← hpc, hstored hkb]

end Stores

theorem fetchWord_storeBytes {s : State} (a : Nat) (bytes : List Byte) (hpc : s.pc.toNat ≤ 4094) :
    fetchWord (storeBytes a bytes s) = .ok (wordOfBytes (byteAt (storeBytes a bytes s) s.pc.toNat)
      (byteAt (storeBytes a bytes s) (s.pc.toNat + 1))) := by
  rw [fetchWord_ok (by rwa [storeBytes_pc]), storeBytes_pc]

/-! ## LD B, Vx, LD [I], Vx and LD Vx, [I] below 4096 -/

theorem exec_ldB_of_fits (x : Reg) {s : State} (h : s.i.toNat ≤ 4093) : exec (.ldB x) s = .next (storeBcd x s) := by
  rw [exec_ldB, withSpan_fits (.inr (by omega))]

theorem exec_ldMemVx_of_fits {x : Reg} {s : State} (h : s.i.toNat + x.val ≤ 4095) :
    exec (.ldMemVx x) s = .next (storeBlock x s) := by
  rw [exec_ldMemVx, withSpan_fits (.inr (by omega))]

theorem exec_ldVxMem_of_fits {x : Reg} {s : State} (h : s.i.toNat + x.val ≤ 4095) :
    exec (.ldVxMem x) s = .next (fetchBlock x s) := by
  rw [exec_ldVxMem, withSpan_fits (.inr (by omega))]

/-- R206: the three digits stored. -/
theorem storeBcd_digits (x : Reg) {s : State} (hm : rising s.mem = true) :
    (byteAt (storeBcd x s) s.i.toNat).toNat = (reg s x).toNat / 100 ∧
    (byteAt (storeBcd x s) (s.i.toNat + 1)).toNat = (reg s x).toNat / 10 % 10 ∧
    (byteAt (storeBcd x s) (s.i.toNat + 2)).toNat = (reg s x).toNat % 10 := by
  have hlt := (reg s x).isLt
  have hdigit (k : Nat) (hk : k < 3) : byteAt (storeBcd x s) (s.i.toNat + k) = (bcdDigits (reg s x))[k] :=
    byteAt_storeBytes_of_mem hm hk
  refine ⟨(congrArg BitVec.toNat (hdigit 0 (by omega))).trans ?_, ?_, ?_⟩
  · exact Nat.mod_eq_of_lt (by omega)
  · rw [hdigit 1 (by omega)]; exact Nat.mod_eq_of_lt (by omega)
  · rw [hdigit 2 (by omega)]; exact Nat.mod_eq_of_lt (by omega)

theorem byteAt_storeBlock {x j : Reg} {s : State} (hm : rising s.mem = true) (hj : j ≤ x) :
    byteAt (storeBlock x s) (s.i.toNat + j.val) = reg s j := by
  have hlt : j.val < (regBlock s x).length := by rw [regBlock_length]; exact Nat.lt_succ_of_le hj
  rw [storeBlock, byteAt_storeBytes_of_mem hm hlt, ← List.getD_eq_getElem _ 0 hlt, regBlock_getD hj]

theorem reg_fetchBlock_of_le {x j : Reg} (s : State) (hj : j ≤ x) :
    reg (fetchBlock x s) j = byteAt s (s.i.toNat + j.val) := by
  rw [fetchBlock, reg_setV, loadBlock_getElem, loadBytes_getD (Nat.lt_succ_of_le hj)]

theorem regBlock_eq (s : State) (x : Reg) : regBlock s x = ((List.finRange 16).map (reg s)).take (x.val + 1) := by
  rw [regBlock]
  congr 1
  apply List.ext_getElem <;> simp [reg]

end Sys2Proof.Machine

namespace Sys2Proof.Safety

open Sys2Proof.Machine

/-- Settles O40: the first cells agree, since neither memory can read differently from the background before its own
first cell, and then the rests agree. -/
theorem equalReadsEqualMemory : Obligations.EqualReadsEqualMemory := fun _ _ _ => eq_of_reads

/-- Settles O35: the store is one `storeBytes` of the digits, or one `raise`. -/
theorem bcdStoresDigits : Obligations.BcdStoresDigits := by
  intro x s hwf
  have hm := rising_of_memWf hwf
  refine ⟨fun hfits => ?digits, fun hpast => ?raises⟩
  case digits =>
    obtain ⟨hundreds, htens, hones⟩ := storeBcd_digits x hm
    exact ⟨_, exec_ldB_of_fits x hfits, hundreds, htens, hones, by omega,
      fun a ha => byteAt_storeBytes_of_not_mem hm ha, changesOnly_storeBytes _ _ s⟩
  case raises =>
    obtain ⟨info, hinfo, hraised⟩ := withSpan_raisedFrom (storeBcd x) (s := s) (Nat.succ_pos 2) (by omega)
    exact ⟨_, info, exec_ldB x s, hinfo, hraised⟩

/-- Settles O36: the store is one `storeBytes` of the registers V0 to Vx, or one `raise`. -/
theorem blockStore : Obligations.BlockStore := by
  intro x s hwf
  have hm := rising_of_memWf hwf
  refine ⟨fun hfits => ?block, fun hpast => ?raises⟩
  case block =>
    refine ⟨_, exec_ldMemVx_of_fits hfits, fun j hj => byteAt_storeBlock hm hj, fun a ha => ?_,
      changesOnly_storeBytes _ _ s⟩
    exact byteAt_storeBytes_of_not_mem hm (by rw [regBlock_length]; omega)
  case raises =>
    obtain ⟨info, hinfo, hraised⟩ := withSpan_raisedFrom (storeBlock x) (s := s) (Nat.succ_pos x.val) (by omega)
    exact ⟨_, info, exec_ldMemVx x s, hinfo, hraised⟩

/-- Settles O37: the load is one `setV` of the registers up to `x` with the bytes read, or one `raise`. -/
theorem blockLoad : Obligations.BlockLoad := by
  intro x s
  refine ⟨fun hfits => ?block, fun hpast => ?raises⟩
  case block =>
    exact ⟨_, exec_ldVxMem_of_fits hfits, fun _ hj => reg_fetchBlock_of_le s hj, fun _ hj => reg_fetchBlock_of_lt s hj,
      changesOnly_setV _ s⟩
  case raises =>
    obtain ⟨info, hinfo, hraised⟩ := withSpan_raisedFrom (fetchBlock x) (s := s) (Nat.succ_pos x.val) (by omega)
    exact ⟨_, info, exec_ldVxMem x s, hinfo, hraised⟩

/-- Settles O41: both instructions are one `storeBytes`, and a fetch after it reads the two bytes at PC from the memory
it left. -/
theorem storeIsFetched : Obligations.StoreIsFetched := by
  intro x s hwf hpc
  have hm := rising_of_memWf hwf
  constructor
  · intro hfits
    rw [← regBlock_eq]
    exact ⟨_, _, _, exec_ldMemVx_of_fits hfits, storeBytes_pc _ _ s, fetchWord_storeBytes _ _ hpc,
      storeSeenByFetch_storeBytes hm⟩
  · intro hfits
    exact ⟨_, _, _, exec_ldB_of_fits x hfits, storeBytes_pc _ _ s, fetchWord_storeBytes _ _ hpc,
      storeSeenByFetch_storeBytes hm⟩

/-! ## Reset and the ROM image -/

theorem loadRom_of_fits {image : List Byte} (s : State) (h : image.length ≤ 3584) :
    loadRom image s = storeBytes programBase image s := if_pos ((romFits_iff image).2 h)

theorem loadRom_of_too_large {image : List Byte} (s : State) (h : 3584 < image.length) :
    loadRom image s = raise .romTooLarge (BitVec.ofNat 16 (min image.length 0xFFFF)) s :=
  if_neg fun hfits => absurd ((romFits_iff image).1 hfits) (by omega)

theorem rising_resetFrom (s : State) : rising (resetFrom s).mem = true := rfl

theorem toNat_romLength (k : Nat) : (BitVec.ofNat 16 (min k 0xFFFF)).toNat = min k 0xFFFF :=
  Nat.mod_eq_of_lt (by omega)

/-- R263: the bytes of an image loaded right after a reset. -/
theorem byteAt_loadRom_resetFrom {image : List Byte} (s : State) (hfits : image.length ≤ 3584) {k : Nat}
    (hk : k < image.length) : byteAt (loadRom image (resetFrom s)) (0x200 + k) = image[k] := by
  rw [loadRom_of_fits _ hfits]
  exact byteAt_storeBytes_of_mem (rising_resetFrom s) hk

/-- Settles O42: loading is one `storeBytes` at 0x200, where reset puts PC, or one `raise`. -/
theorem romImageIsLoaded : Obligations.RomImageIsLoaded := by
  intro s image
  refine ⟨fun hfits => ⟨fun k hk => ?bytes, fun a ha => ?others, ?frame, fun hi lo rest himage => ?fetch⟩,
    fun hlarge => ?raises⟩
  case bytes => rw [byteAt_loadRom_resetFrom s hfits hk, List.getElem?_eq_getElem hk]
  case others =>
    rw [loadRom_of_fits _ hfits]
    exact byteAt_storeBytes_of_not_mem (rising_resetFrom s) ha
  case frame =>
    rw [loadRom_of_fits _ hfits]
    exact changesOnly_storeBytes _ _ _
  case fetch =>
    subst himage
    have hfirst := byteAt_loadRom_resetFrom s hfits (k := 0) (by simp)
    have hsecond := byteAt_loadRom_resetFrom s hfits (k := 1) (by simp)
    rw [loadRom_of_fits _ hfits] at hfirst hsecond ⊢
    rw [fetchWord_storeBytes (s := resetFrom s) _ _ (by decide : (0x200 : Word).toNat ≤ 4094)]
    exact congrArg Except.ok (congrArg₂ wordOfBytes hfirst hsecond)
  case raises =>
    rw [loadRom_of_too_large _ hlarge]
    exact ⟨_, toNat_romLength _, raisedFrom_raise _ _ _⟩

/-- R68: outside the font the background is 0. -/
theorem background_of_not_font {c : Config} {a : Nat} (h : a < c.fontBase ∨ c.fontBase + c.font.length ≤ a) :
    background c a = 0 := by
  rw [background]
  split
  · exact List.getD_eq_default _ _ (by omega)
  · rfl

/-- Settles O43: every field has its literal reset value, and memory with no listed cell reads as the background. -/
theorem resetLeaves : Obligations.ResetLeaves := by
  intro s
  refine ⟨fun x => Vector.getElem_replicate _, rfl, rfl, rfl, rfl, rfl, rfl, pixelAt_clearedFrame,
    fun k => Vector.getElem_replicate _, rfl, fun hwf => ?memory⟩
  case memory =>
    obtain ⟨-, hfont⟩ := s.cfg.wf_iff.1 hwf
    refine ⟨fun k hk => ?_, fun a ha => ?_⟩
    · have hk' : k < s.cfg.font.length := by omega
      rw [byteAt_resetFrom, background_font hk', List.getElem?_eq_getElem hk']
    · rw [byteAt_resetFrom, background_of_not_font (by omega)]

end Sys2Proof.Safety

/-! PROOFS. Spec 60_exceptions and 70_reset_and_hazards: the operations of the environment one at a time, and along
every sequence (R230, R236, R240, R241, R262). -/

namespace Sys2Proof.Machine

open Sys2Proof.Safety

/-! ## One operation -/

theorem countDown_toNat (b : Byte) : (countDown b).toNat = b.toNat - 1 := by
  rw [countDown]
  split
  case isTrue h => rw [h]; rfl
  case isFalse h =>
    have hpos : b.toNat ≠ 0 := fun h0 => h (BitVec.eq_of_toNat_eq h0)
    rw [BitVec.toNat_sub_of_le (BitVec.le_def.2 (by show 1 ≤ b.toNat; omega))]
    rfl

theorem tick_run (s : State) : (tick s).run = s.run := rfl
theorem tick_dt (s : State) : (tick s).dt = countDown s.dt := rfl
theorem tick_st (s : State) : (tick s).st = countDown s.st := rfl

theorem changesOnly_tick (s : State) : ChangesOnly [.dt, .st] s (tick s) :=
  ((changesOnly_setDt _ s).mono (by simp)).trans ((changesOnly_setSt _ _).mono (by simp))

/-- R230: in a faulted state a key is recorded and nothing else happens. -/
theorem keySet_of_faulted {k : Key} {b : Bool} {s : State} {e : ErrorKind} {info : Word}
    (h : s.run = .faulted e info) : keySet k b s = setKeys (s.keys.set k b) s :=
  keySet_of_not_wakes fun ⟨_, _, r, hr⟩ => by rw [h] at hr; cases hr

theorem resetFrom_run (s : State) : (resetFrom s).run = .running := rfl

/-! Before the first reset nothing else has a meaning, and after it only a load_rom can have none (R262). -/

theorem bootNext_off {op : Operation} (h : op ≠ .reset) : bootNext .off op = none := by
  cases op with
  | reset => exact absurd rfl h
  | _ => rfl

theorem bootNext_tick {p : BootPhase} (h : p ≠ .off) : bootNext p .tick = some p := if_neg h
theorem bootNext_keySet {p : BootPhase} (h : p ≠ .off) (k : Key) (b : Bool) : bootNext p (.keySet k b) = some p :=
  if_neg h
theorem bootNext_snapshot {p : BootPhase} (h : p ≠ .off) : bootNext p .snapshot = some p := if_neg h

theorem bootNext_step {p : BootPhase} (h : p ≠ .off) : ∃ q, bootNext p .step = some q ∧ q ≠ .off := by
  cases p with
  | off => exact absurd rfl h
  | fresh | loaded | stepped => exact ⟨_, rfl, by decide⟩

theorem bootNext_loadRom {p : BootPhase} (h : p ≠ .fresh) (image : List Byte) : bootNext p (.loadRom image) = none :=
  if_neg h

/-! ## A sequence of operations -/

/-- A property that every admitted operation keeps holds after every sequence of them, which runs. -/
theorem operateAll_keeps {P : Session → Prop} {admitted : Operation → Prop}
    (hop : ∀ op c, admitted op → P c → ∃ d, operate op c = .next d ∧ P d) (ops : List Operation) (c : Session)
    (hops : ∀ op ∈ ops, admitted op) (hc : P c) : ∃ d, operateAll ops c = .next d ∧ P d := by
  induction ops generalizing c with
  | nil => exact ⟨c, rfl, hc⟩
  | cons op rest ih =>
    obtain ⟨hfirst, hrest⟩ := List.forall_mem_cons.1 hops
    obtain ⟨c', hc', hP⟩ := hop op c hfirst hc
    rw [operateAll_cons_next hc']
    exact ih c' hrest hP

/-- A sequence that answers a session begins with an operation that answers one. -/
theorem operateAll_cons_next_iff {op : Operation} {rest : List Operation} {c d : Session} :
    operateAll (op :: rest) c = .next d ↔ ∃ c', operate op c = .next c' ∧ operateAll rest c' = .next d := by
  rw [operateAll]
  cases operate op c with
  | next c' => simp
  | fault r => simp
  | refused r => simp

end Sys2Proof.Machine

namespace Sys2Proof.Safety

open Sys2Proof.Machine

/-- Settles O30: with RUN known to wait, a step holds, a tick counts, and a key_set wakes the core exactly on a
transition to pressed. -/
theorem keyWait : Obligations.KeyWait := by
  intro x s
  refine ⟨setRun (.waitingForKey x) s, exec_ldVxK x s, rfl, changesOnly_setRun _ s, ?hold, rfl, rfl,
    ⟨tick_run _, countDown_toNat s.dt, countDown_toNat s.st⟩,
    fun k => ⟨?released, fun hdown => ?alreadyDown, fun hup => ?pressed⟩⟩
  case hold => exact step_of_not_running (by rw [setRun_run]; exact RunState.noConfusion)
  case released => rw [keySet_of_not_wakes (by simp)]; rfl
  case alreadyDown => rw [keySet_of_not_wakes (by simp [hdown])]; rfl
  case pressed =>
    have hk : k.val < 256 := by omega
    rw [keySet_of_wakes (s := setRun (.waitingForKey x) s) hup rfl]
    refine ⟨rfl, ?_, rfl, fun j hj => reg_setReg_of_ne _ _ hj⟩
    rw [reg_setRun, reg_setReg_same, BitVec.toNat_ofNat, Nat.mod_eq_of_lt hk]

/-- What a session keeps once its core has faulted, from `s` on. -/
def FaultedSince (e : ErrorKind) (info : Word) (s : State) (d : Session) : Prop :=
  d.phase ≠ .off ∧ d.core.run = .faulted e info ∧ ChangesOnly [.dt, .st, .keys] s d.core

theorem faultedSince_operate {e : ErrorKind} {info : Word} {s : State} (op : Operation) (c : Session)
    (hop : op = .step ∨ op = .tick ∨ op = .snapshot ∨ ∃ k b, op = .keySet k b) (hc : FaultedSince e info s c) :
    ∃ d, operate op c = .next d ∧ FaultedSince e info s d := by
  obtain ⟨hphase, hrun, hframe⟩ := hc
  rcases hop with rfl | rfl | rfl | ⟨k, b, rfl⟩
  · obtain ⟨q, hq, hqoff⟩ := bootNext_step hphase
    have hhold : step c.core = .next c.core := step_of_not_running (by rw [hrun]; exact RunState.noConfusion)
    exact ⟨_, operate_next hq hhold, hqoff, hrun, hframe⟩
  · exact ⟨_, operate_next (bootNext_tick hphase) rfl, hphase, hrun,
      hframe.trans ((changesOnly_tick c.core).mono (by simp))⟩
  · exact ⟨_, operate_next (bootNext_snapshot hphase) rfl, hphase, hrun, hframe⟩
  · refine ⟨_, operate_next (bootNext_keySet hphase k b) rfl, hphase, ?_⟩
    rw [keySet_of_faulted hrun]
    exact ⟨hrun, hframe.trans ((changesOnly_setKeys _ c.core).mono (by simp))⟩

/-- Settles O11: each of the four operations keeps the fault and writes timers and keys at most. -/
theorem faultedIsSticky : Obligations.FaultedIsSticky := by
  intro e info c hrun
  refine ⟨fun hphase ops hops => ?sticky, _, operate_next (c := c) (op := .reset) rfl rfl, resetFrom_run c.core⟩
  case sticky =>
    obtain ⟨d, hd, -, hdrun, hframe⟩ :=
      operateAll_keeps faultedSince_operate ops c hops ⟨hphase, hrun, ChangesOnly.refl _ c.core⟩
    exact ⟨d, hd, hdrun, hframe⟩

/-- Settles O38: one tick takes one from each timer that is not 0. -/
theorem ticksCountDown : Obligations.TicksCountDown := by
  intro n
  induction n with
  | zero => exact fun c _ => ⟨c, rfl, rfl, rfl, rfl, ChangesOnly.refl _ c.core⟩
  | succ n ih =>
    intro c hphase
    have hfirst : operate .tick c = .next { core := tick c.core, phase := c.phase } :=
      operate_next (bootNext_tick hphase) rfl
    obtain ⟨d, hd, hdphase, hdt, hst, hframe⟩ := ih { core := tick c.core, phase := c.phase } hphase
    rw [tick_dt, countDown_toNat] at hdt
    rw [tick_st, countDown_toNat] at hst
    refine ⟨d, ?_, hdphase, by omega, by omega, (changesOnly_tick c.core).trans hframe⟩
    rw [List.replicate_succ, operateAll_cons_next hfirst, hd]

/-! ## The invariant along the operations -/

theorem CoreInv.after_wake {s : State} (h : CoreInv s) (k : Key) : CoreInv (wake k s) := by
  cases hrun : s.run with
  | waitingForKey r =>
    rw [wake, hrun]
    exact (h.after_setReg _ _).after_setRun rfl
  | running | faulted => rwa [wake_of_not_waiting k (by simp [hrun])]

theorem CoreInv.after_keySet {s : State} (h : CoreInv s) (k : Key) (b : Bool) : CoreInv (keySet k b s) := by
  rw [keySet]
  split
  · exact (h.after_setKeys _).after_wake k
  · exact h.after_setKeys _

theorem CoreInv.after_tick {s : State} (h : CoreInv s) : CoreInv (tick s) := (h.after_setDt _).after_setSt _

theorem coreInv_resetFrom {s : State} (hcfg : s.cfg.wf = true) : CoreInv (resetFrom s) :=
  (coreInv_resetWith hcfg).after_setDraws s.draws

theorem CoreInv.after_loadRom {s : State} (h : CoreInv s) (image : List Byte) : CoreInv (loadRom image s) := by
  by_cases hfits : image.length ≤ 3584
  · rw [loadRom_of_fits s hfits]
    exact h.after_storeBytes (show 512 + image.length ≤ 4096 by omega)
  · rw [loadRom_of_too_large s (by omega)]
    refine h.after_raise (decide_eq_true ?_)
    rw [toNat_romLength]
    show 3584 < min image.length 0xFFFF
    omega

theorem CoreInv.after_perform {s : State} (h : CoreInv s) (op : Operation) :
    ∃ t, perform op s = .next t ∧ CoreInv t := by
  cases op with
  | reset => exact ⟨_, rfl, coreInv_resetFrom h.config⟩
  | loadRom image => exact ⟨_, rfl, h.after_loadRom image⟩
  | step =>
    obtain ⟨t, ht⟩ := h.step_answers
    exact ⟨t, ht, h.after_step ht⟩
  | tick => exact ⟨_, rfl, h.after_tick⟩
  | keySet k b => exact ⟨_, rfl, h.after_keySet k b⟩
  | snapshot => exact ⟨_, rfl, h⟩

theorem CoreInv.operate_next {c : Session} (h : CoreInv c.core) {op : Operation} {q : BootPhase}
    (hq : bootNext c.phase op = some q) : ∃ d, operate op c = .next d ∧ CoreInv d.core ∧ d.phase = q := by
  obtain ⟨t, ht, hinv⟩ := h.after_perform op
  exact ⟨_, Machine.operate_next hq ht, hinv, rfl⟩

theorem bootAllows_cons_of_next {p q : BootPhase} {op : Operation} (h : bootNext p op = some q)
    (rest : List Operation) : bootAllows p (op :: rest) = bootAllows q rest := by rw [bootAllows, h]

theorem bootAllows_cons_of_none {p : BootPhase} {op : Operation} (h : bootNext p op = none)
    (rest : List Operation) : bootAllows p (op :: rest) = false := by rw [bootAllows, h]

/-- Settles O53: an operation with a meaning answers a session that meets the invariant in the phase `bootNext` gives,
and the first one without a meaning is refused. -/
theorem operationsKeepInvariant : Obligations.OperationsKeepInvariant := by
  intro ops
  induction ops with
  | nil => exact fun c h => ⟨fun _ => ⟨c, rfl, h⟩, fun hno => absurd hno (by simp [bootAllows])⟩
  | cons op rest ih =>
    intro c h
    cases hnext : bootNext c.phase op with
    | none =>
      rw [bootAllows_cons_of_none hnext]
      exact ⟨fun hno => absurd hno (by simp), fun _ => operateAll_cons_refused (operate_refused hnext)⟩
    | some q =>
      obtain ⟨d, hd, hinv, hphase⟩ := h.operate_next hnext
      rw [bootAllows_cons_of_next hnext, operateAll_cons_next hd, ← hphase]
      exact ih d hinv

/-! ## The boot order -/

theorem bootOrder_cons {p : BootPhase} {op : Operation} {rest : List Operation} (h : bootOrder p (op :: rest) = true) :
    bootOwes p op = true ∧ ∃ q, bootNext p op = some q ∧ bootOrder q rest = true := by
  rw [bootOrder, Bool.and_eq_true] at h
  obtain ⟨howes, hrest⟩ := h
  obtain ⟨q, hq⟩ := bootNext_of_owes howes
  rw [hq] at hrest
  exact ⟨howes, q, hq, hrest⟩

theorem length_le_of_bootOwes {p : BootPhase} {image : List Byte} (h : bootOwes p (.loadRom image) = true) :
    image.length ≤ 3584 := by
  rw [bootOwes, Bool.and_eq_true] at h
  exact (romFits_iff image).1 h.2

/-- RUN is not Faulted(RomTooLarge). -/
def NotRomTooLarge (r : RunState) : Prop := ∀ info, r ≠ .faulted .romTooLarge info

theorem executeError_ne_romTooLarge (i : Instr) : executeError i ≠ some .romTooLarge := by
  cases i <;> simp [executeError]

theorem notRomTooLarge_exec {i : Instr} {s t : State} (hs : NotRomTooLarge s.run) (h : exec i s = .next t) :
    NotRomTooLarge t.run := by
  intro info
  rcases exec_next_cases h with ⟨rfl, -⟩ | ⟨e, info', he, -, rfl⟩
  · rcases effect_run i s with hrun | ⟨x, hrun⟩ <;> rw [hrun]
    · exact hs info
    · exact RunState.noConfusion
  · rw [raise_run]
    rintro ⟨⟩
    exact executeError_ne_romTooLarge i he

theorem notRomTooLarge_step {s t : State} (hs : NotRomTooLarge s.run) (h : step s = .next t) :
    NotRomTooLarge t.run := by
  rcases step_cases s with ⟨-, hstep⟩ | ⟨-, -, hstep⟩ | ⟨-, -, w, -, -, hstep⟩ | ⟨-, -, w, i, -, -, hstep⟩ <;>
    rw [hstep] at h
  · cases h; exact hs
  · cases h; rintro info ⟨⟩
  · cases h; rintro info ⟨⟩
  · exact notRomTooLarge_exec (s := advancePc s) hs h

theorem notRomTooLarge_wake {s : State} (hs : NotRomTooLarge s.run) (k : Key) : NotRomTooLarge (wake k s).run := by
  cases hrun : s.run with
  | waitingForKey r =>
    rw [wake, hrun]
    exact fun info => RunState.noConfusion
  | running | faulted => rwa [wake_of_not_waiting k (by simp [hrun])]

theorem notRomTooLarge_keySet {s : State} (hs : NotRomTooLarge s.run) (k : Key) (b : Bool) :
    NotRomTooLarge (keySet k b s).run := by
  rw [keySet]
  split
  · exact notRomTooLarge_wake (s := setKeys (s.keys.set k b) s) hs k
  · exact hs

theorem notRomTooLarge_perform {p : BootPhase} {op : Operation} {s t : State} (howes : bootOwes p op = true)
    (hs : NotRomTooLarge s.run) (h : perform op s = .next t) : NotRomTooLarge t.run := by
  cases op with
  | reset => cases h; exact fun info => RunState.noConfusion
  | loadRom image =>
    cases h
    rwa [loadRom_of_fits s (length_le_of_bootOwes howes), storeBytes_run]
  | step => exact notRomTooLarge_step hs h
  | tick => cases h; exact hs
  | keySet k b => cases h; exact notRomTooLarge_keySet hs k b
  | snapshot => cases h; exact hs

/-- Along the boot order every operation answers, and none raises RomTooLarge. -/
theorem bootOrder_runs (ops : List Operation) (c : Session) (hinv : CoreInv c.core) (hrun : NotRomTooLarge c.core.run)
    (horder : bootOrder c.phase ops = true) : ∃ d, operateAll ops c = .next d ∧ NotRomTooLarge d.core.run := by
  induction ops generalizing c with
  | nil => exact ⟨c, rfl, hrun⟩
  | cons op rest ih =>
    obtain ⟨howes, q, hq, hrest⟩ := bootOrder_cons horder
    obtain ⟨d, hd, hdinv, rfl⟩ := hinv.operate_next hq
    obtain ⟨-, hperform⟩ := operate_next_iff.1 hd
    rw [operateAll_cons_next hd]
    exact ih d hdinv (notRomTooLarge_perform howes hrun hperform) hrest

/-- Settles O54: reset gives a core that meets the invariant, the image fits and so stands where it was loaded, and
along the rest of the order every operation answers. -/
theorem bootOrderLoadsRom : Obligations.BootOrderLoadsRom := by
  intro image ops c hcfg horder
  obtain ⟨-, q, hq, hload⟩ := bootOrder_cons horder
  cases hq
  obtain ⟨howes, q, hq, hrest⟩ := bootOrder_cons hload
  cases hq
  have hfits := length_le_of_bootOwes howes
  have hinv : CoreInv (loadRom image (resetFrom c.core)) := (coreInv_resetFrom hcfg).after_loadRom image
  have hrun : (loadRom image (resetFrom c.core)).run = .running := by
    rw [loadRom_of_fits _ hfits, storeBytes_run, resetFrom_run]
  obtain ⟨d, hd, hdrun⟩ := bootOrder_runs ops { core := loadRom image (resetFrom c.core), phase := .loaded } hinv
    (fun info => by rw [hrun]; exact RunState.noConfusion) hrest
  refine ⟨_, d, rfl, fun k hk => ?bytes, ?pc, hrun, rfl, hd, hdrun⟩
  case bytes => rw [byteAt_loadRom_resetFrom c.core hfits hk, List.getElem?_eq_getElem hk]
  case pc => rw [loadRom_of_fits _ hfits, storeBytes_pc]; rfl

theorem operateAll_phase_ne_fresh (ops : List Operation) (c d : Session) (hno : .reset ∉ ops)
    (hphase : c.phase ≠ .fresh) (h : operateAll ops c = .next d) : d.phase ≠ .fresh := by
  induction ops generalizing c with
  | nil => cases h; exact hphase
  | cons op rest ih =>
    rw [List.mem_cons, not_or] at hno
    obtain ⟨hop, hrest⟩ := hno
    obtain ⟨c', hc', hd⟩ := operateAll_cons_next_iff.1 h
    obtain ⟨hnext, -⟩ := operate_next_iff.1 hc'
    exact ih c' hrest (bootNext_ne_fresh hphase (Ne.symm hop) hnext) hd

/-- Settles O55: only reset leads back to the one phase in which a load_rom has a meaning, and out of the first
phase. -/
theorem lateLoadRomIsRefused : Obligations.LateLoadRomIsRefused := by
  refine ⟨fun op ops image c d hop hno h => ?late, fun op c hoff hop => ?early⟩
  case late =>
    obtain ⟨c', hc', hd⟩ := operateAll_cons_next_iff.1 h
    obtain ⟨hnext, -⟩ := operate_next_iff.1 hc'
    have hphase := operateAll_phase_ne_fresh ops c' d hno (bootNext_step_ne_fresh hop hnext) hd
    exact operate_refused (bootNext_loadRom hphase image)
  case early => exact operate_refused (by rw [hoff]; exact bootNext_off hop)

end Sys2Proof.Safety
